-- ==== Sys2Proof/Word.lean ====
section
/-! DEFINITION. The word, byte and register-number types of the machine (00_scope.md section 5.1, rules R2 and R8).
Arithmetic on words is BitVec arithmetic, which is modulo 2^16 (00_scope.md rule R1). -/

namespace Sys2Proof

/-- One 16-bit unsigned value, the unit of memory and of instructions (00_scope.md section 5.1). -/
abbrev Word := BitVec 16

/-- One byte of the channels `kbq` and `out` (10_state.md rules R21, R22), and half a memory cell. -/
abbrev Byte := BitVec 8

/-- A general register number: a register field is 3 bits wide and always in 0..7 (00_scope.md rule R8). -/
abbrev Reg := Fin 8

end Sys2Proof
end

