-- ==== Sys2Proof/Syntax.lean ====
section
/-! DEFINITION. The instructions: one constructor for each row of spec/opcode_table.json, in the table's order.
Fields carry the names and widths of 30_encoding.md rule R53. -/

namespace Sys2Proof

/-- An instruction of the machine. Immediates are the raw fields; they are extended where they are used
(30_encoding.md rule R54). `ret` and the six service routines are rows of the table of their own: their words are
also matched by the rows JMP and TRAP (notes/assumptions/7.md). -/
inductive Instr where
  /-- BR, 42_control.md rule R90. -/
  | br (n z p : Bool) (pcOffset9 : BitVec 9)
  /-- ADD, register form, 40_alu.md rule R70. -/
  | addReg (dr sr1 sr2 : Reg)
  /-- ADD, immediate form, 40_alu.md rule R71. -/
  | addImm (dr sr1 : Reg) (imm5 : BitVec 5)
  /-- LD, 41_load_store.md rule R80. -/
  | ld (dr : Reg) (pcOffset9 : BitVec 9)
  /-- ST, 41_load_store.md rule R84. -/
  | st (sr : Reg) (pcOffset9 : BitVec 9)
  /-- JSR, 42_control.md rule R93. -/
  | jsr (pcOffset11 : BitVec 11)
  /-- JSRR, 42_control.md rule R94. -/
  | jsrr (baseR : Reg)
  /-- AND, register form, 40_alu.md rule R72. -/
  | andReg (dr sr1 sr2 : Reg)
  /-- AND, immediate form, 40_alu.md rule R73. -/
  | andImm (dr sr1 : Reg) (imm5 : BitVec 5)
  /-- LDR, 41_load_store.md rule R82. -/
  | ldr (dr baseR : Reg) (offset6 : BitVec 6)
  /-- STR, 41_load_store.md rule R86. -/
  | str (sr baseR : Reg) (offset6 : BitVec 6)
  /-- RTI, 44_illegal.md rule R115. -/
  | rti
  /-- NOT, 40_alu.md rule R74. -/
  | not (dr sr : Reg)
  /-- LDI, 41_load_store.md rule R81. -/
  | ldi (dr : Reg) (pcOffset9 : BitVec 9)
  /-- STI, 41_load_store.md rule R85. -/
  | sti (sr : Reg) (pcOffset9 : BitVec 9)
  /-- JMP, 42_control.md rule R91. -/
  | jmp (baseR : Reg)
  /-- RET, 42_control.md rule R92. -/
  | ret
  /-- RES, 44_illegal.md rule R116. -/
  | res
  /-- LEA, 41_load_store.md rule R83. -/
  | lea (dr : Reg) (pcOffset9 : BitVec 9)
  /-- GETC, 43_trap.md rule R101. -/
  | getc
  /-- OUT, 43_trap.md rule R102. -/
  | out
  /-- PUTS, 43_trap.md rule R103. -/
  | puts
  /-- IN, 43_trap.md rule R104 (`in` is a word of Lean). -/
  | inp
  /-- PUTSP, 43_trap.md rule R105. -/
  | putsp
  /-- HALT, 43_trap.md rule R106. -/
  | halt
  /-- TRAP with any other vector, 43_trap.md rules R100 and R107. -/
  | trap (trapvect8 : BitVec 8)
  deriving DecidableEq, Repr

end Sys2Proof
end

