-- ==== Sys2Proof/WellFormed.lean ====
section
/-! DEFINITION. Which instructions are the reading of some word. Field widths are in the types; what is left is that
a word read by a more particular row of spec/opcode_table.json is not also spelled by the general row. -/

namespace Sys2Proof

/-- The vectors 0x20..0x25, which select a built-in routine (43_trap.md rule R100). -/
def isServiceVector (v : BitVec 8) : Bool :=
  decide (0x20#8 ≤ v) && decide (v ≤ 0x25#8)

/-- The spelling the decoder gives: `jmp 7` is spelled `ret` (42_control.md rule R92) and `trap` with a service
vector is spelled by its routine (the table's TRAP row is a fallback row). notes/assumptions/7.md. -/
def Instr.wellFormed : Instr → Bool
  | .br _ _ _ _ => true
  | .addReg _ _ _ => true
  | .addImm _ _ _ => true
  | .ld _ _ => true
  | .st _ _ => true
  | .jsr _ => true
  | .jsrr _ => true
  | .andReg _ _ _ => true
  | .andImm _ _ _ => true
  | .ldr _ _ _ => true
  | .str _ _ _ => true
  | .rti => true
  | .not _ _ => true
  | .ldi _ _ => true
  | .sti _ _ => true
  | .jmp baseR => baseR != 7
  | .ret => true
  | .res => true
  | .lea _ _ => true
  | .getc => true
  | .out => true
  | .puts => true
  | .inp => true
  | .putsp => true
  | .halt => true
  | .trap v => !isServiceVector v

end Sys2Proof
end

