-- ==== Sys2Proof/Decode.lean ====
section
/-! DEFINITION. The decoder, the encoder and the opcode table's masks (30_encoding.md rules R53 to R60, R64).
The decoder is total and refuses no word (30_encoding.md rule R57), so there is no rejection to name. -/

namespace Sys2Proof

/-- `ir[15:12]` (30_encoding.md rule R53). -/
def opcode (ir : Word) : BitVec 4 := ir.extractLsb' 12 4

/-- The 3-bit register field whose lowest bit is bit `lo` (30_encoding.md rule R53). -/
def regField (ir : Word) (lo : Nat) : Reg := (ir.extractLsb' lo 3).toFin

/-- `imm5 = ir[4:0]`. -/
def imm5Field (ir : Word) : BitVec 5 := ir.extractLsb' 0 5

/-- `offset6 = ir[5:0]`. -/
def offset6Field (ir : Word) : BitVec 6 := ir.extractLsb' 0 6

/-- `PCoffset9 = ir[8:0]`. -/
def pcOffset9Field (ir : Word) : BitVec 9 := ir.extractLsb' 0 9

/-- `PCoffset11 = ir[10:0]`. -/
def pcOffset11Field (ir : Word) : BitVec 11 := ir.extractLsb' 0 11

/-- `trapvect8 = ir[7:0]`. -/
def trapvect8Field (ir : Word) : BitVec 8 := ir.extractLsb' 0 8

/-- Opcode 0x4: bit 11 selects JSR or JSRR (30_encoding.md rule R56). -/
def decodeJsr (ir : Word) : Instr :=
  if ir.getLsbD 11 then .jsr (pcOffset11Field ir) else .jsrr (regField ir 6)

/-- Opcode 0xC: BaseR = 7 is RET (42_control.md rule R92). -/
def decodeJmp (ir : Word) : Instr :=
  if regField ir 6 = 7 then .ret else .jmp (regField ir 6)

/-- Opcode 0xF: the low 8 bits select one of six routines or the fallback (43_trap.md rule R100). -/
def decodeTrap (ir : Word) : Instr :=
  if trapvect8Field ir = 0x20#8 then .getc
  else if trapvect8Field ir = 0x21#8 then .out
  else if trapvect8Field ir = 0x22#8 then .puts
  else if trapvect8Field ir = 0x23#8 then .inp
  else if trapvect8Field ir = 0x24#8 then .putsp
  else if trapvect8Field ir = 0x25#8 then .halt
  else .trap (trapvect8Field ir)

/-- The instruction a word is (30_encoding.md rule R56: dispatch on `ir[15:12]` alone). Bits that no field covers are
not looked at (30_encoding.md rule R58, the spec's decision D7, notes/assumptions/10.md). The last arm is 0xF, the one
value of the 16 left over. -/
def decode (ir : Word) : Instr :=
  match opcode ir with
  | 0x0#4 => .br (ir.getLsbD 11) (ir.getLsbD 10) (ir.getLsbD 9) (pcOffset9Field ir)
  | 0x1#4 =>
    if ir.getLsbD 5 then .addImm (regField ir 9) (regField ir 6) (imm5Field ir)
    else .addReg (regField ir 9) (regField ir 6) (regField ir 0)
  | 0x2#4 => .ld (regField ir 9) (pcOffset9Field ir)
  | 0x3#4 => .st (regField ir 9) (pcOffset9Field ir)
  | 0x4#4 => decodeJsr ir
  | 0x5#4 =>
    if ir.getLsbD 5 then .andImm (regField ir 9) (regField ir 6) (imm5Field ir)
    else .andReg (regField ir 9) (regField ir 6) (regField ir 0)
  | 0x6#4 => .ldr (regField ir 9) (regField ir 6) (offset6Field ir)
  | 0x7#4 => .str (regField ir 9) (regField ir 6) (offset6Field ir)
  | 0x8#4 => .rti
  | 0x9#4 => .not (regField ir 9) (regField ir 6)
  | 0xA#4 => .ldi (regField ir 9) (pcOffset9Field ir)
  | 0xB#4 => .sti (regField ir 9) (pcOffset9Field ir)
  | 0xC#4 => decodeJmp ir
  | 0xD#4 => .res
  | 0xE#4 => .lea (regField ir 9) (pcOffset9Field ir)
  | _ => decodeTrap ir

/-- A register number as its 3-bit field. -/
def regBits (r : Reg) : BitVec 3 := BitVec.ofFin r

/-- The word of an instruction, laid out from bit 15 down as 30_encoding.md rules R55 and R64 write it: ignored bits
are 0, but NOT's bits 5:0, which are 1. -/
def encode : Instr → Word
  | .br n z p off => 0x0#4 ++ BitVec.ofBool n ++ BitVec.ofBool z ++ BitVec.ofBool p ++ off
  | .addReg dr sr1 sr2 => 0x1#4 ++ regBits dr ++ regBits sr1 ++ 0b0#1 ++ 0b00#2 ++ regBits sr2
  | .addImm dr sr1 imm => 0x1#4 ++ regBits dr ++ regBits sr1 ++ 0b1#1 ++ imm
  | .ld dr off => 0x2#4 ++ regBits dr ++ off
  | .st sr off => 0x3#4 ++ regBits sr ++ off
  | .jsr off => 0x4#4 ++ 0b1#1 ++ off
  | .jsrr baseR => 0x4#4 ++ 0b0#1 ++ 0b00#2 ++ regBits baseR ++ 0b000000#6
  | .andReg dr sr1 sr2 => 0x5#4 ++ regBits dr ++ regBits sr1 ++ 0b0#1 ++ 0b00#2 ++ regBits sr2
  | .andImm dr sr1 imm => 0x5#4 ++ regBits dr ++ regBits sr1 ++ 0b1#1 ++ imm
  | .ldr dr baseR off => 0x6#4 ++ regBits dr ++ regBits baseR ++ off
  | .str sr baseR off => 0x7#4 ++ regBits sr ++ regBits baseR ++ off
  | .rti => 0x8#4 ++ 0#12
  | .not dr sr => 0x9#4 ++ regBits dr ++ regBits sr ++ 0b111111#6
  | .ldi dr off => 0xA#4 ++ regBits dr ++ off
  | .sti sr off => 0xB#4 ++ regBits sr ++ off
  | .jmp baseR => 0xC#4 ++ 0b000#3 ++ regBits baseR ++ 0b000000#6
  | .ret => 0xC#4 ++ 0b000#3 ++ 0b111#3 ++ 0b000000#6
  | .res => 0xD#4 ++ 0#12
  | .lea dr off => 0xE#4 ++ regBits dr ++ off
  | .getc => 0xF#4 ++ 0x0#4 ++ 0x20#8
  | .out => 0xF#4 ++ 0x0#4 ++ 0x21#8
  | .puts => 0xF#4 ++ 0x0#4 ++ 0x22#8
  | .inp => 0xF#4 ++ 0x0#4 ++ 0x23#8
  | .putsp => 0xF#4 ++ 0x0#4 ++ 0x24#8
  | .halt => 0xF#4 ++ 0x0#4 ++ 0x25#8
  | .trap v => 0xF#4 ++ 0x0#4 ++ v

/-- The `mask` column of the instruction's row in spec/opcode_table.json: the bits the row fixes. -/
def rowMask : Instr → Word
  | .br _ _ _ _ => 0xF000#16
  | .addReg _ _ _ => 0xF020#16
  | .addImm _ _ _ => 0xF020#16
  | .ld _ _ => 0xF000#16
  | .st _ _ => 0xF000#16
  | .jsr _ => 0xF800#16
  | .jsrr _ => 0xF800#16
  | .andReg _ _ _ => 0xF020#16
  | .andImm _ _ _ => 0xF020#16
  | .ldr _ _ _ => 0xF000#16
  | .str _ _ _ => 0xF000#16
  | .rti => 0xF000#16
  | .not _ _ => 0xF000#16
  | .ldi _ _ => 0xF000#16
  | .sti _ _ => 0xF000#16
  | .jmp _ => 0xF000#16
  | .ret => 0xF1C0#16
  | .res => 0xF000#16
  | .lea _ _ => 0xF000#16
  | .getc => 0xF0FF#16
  | .out => 0xF0FF#16
  | .puts => 0xF0FF#16
  | .inp => 0xF0FF#16
  | .putsp => 0xF0FF#16
  | .halt => 0xF0FF#16
  | .trap _ => 0xF000#16

/-- The `match` column of the instruction's row in spec/opcode_table.json: what the fixed bits are. -/
def rowMatch : Instr → Word
  | .br _ _ _ _ => 0x0000#16
  | .addReg _ _ _ => 0x1000#16
  | .addImm _ _ _ => 0x1020#16
  | .ld _ _ => 0x2000#16
  | .st _ _ => 0x3000#16
  | .jsr _ => 0x4800#16
  | .jsrr _ => 0x4000#16
  | .andReg _ _ _ => 0x5000#16
  | .andImm _ _ _ => 0x5020#16
  | .ldr _ _ _ => 0x6000#16
  | .str _ _ _ => 0x7000#16
  | .rti => 0x8000#16
  | .not _ _ => 0x9000#16
  | .ldi _ _ => 0xA000#16
  | .sti _ _ => 0xB000#16
  | .jmp _ => 0xC000#16
  | .ret => 0xC1C0#16
  | .res => 0xD000#16
  | .lea _ _ => 0xE000#16
  | .getc => 0xF020#16
  | .out => 0xF021#16
  | .puts => 0xF022#16
  | .inp => 0xF023#16
  | .putsp => 0xF024#16
  | .halt => 0xF025#16
  | .trap _ => 0xF000#16

/-- The ignored bits of the instruction, as the table of 30_encoding.md rule R58 lists them (the bits of RET are
JMP's, those of the six routines TRAP's). -/
def ignoredBits : Instr → Word
  | .br _ _ _ _ => 0x0000#16
  | .addReg _ _ _ => 0x0018#16
  | .addImm _ _ _ => 0x0000#16
  | .ld _ _ => 0x0000#16
  | .st _ _ => 0x0000#16
  | .jsr _ => 0x0000#16
  | .jsrr _ => 0x063F#16
  | .andReg _ _ _ => 0x0018#16
  | .andImm _ _ _ => 0x0000#16
  | .ldr _ _ _ => 0x0000#16
  | .str _ _ _ => 0x0000#16
  | .rti => 0x0FFF#16
  | .not _ _ => 0x003F#16
  | .ldi _ _ => 0x0000#16
  | .sti _ _ => 0x0000#16
  | .jmp _ => 0x0E3F#16
  | .ret => 0x0E3F#16
  | .res => 0x0FFF#16
  | .lea _ _ => 0x0000#16
  | .getc => 0x0F00#16
  | .out => 0x0F00#16
  | .puts => 0x0F00#16
  | .inp => 0x0F00#16
  | .putsp => 0x0F00#16
  | .halt => 0x0F00#16
  | .trap _ => 0x0F00#16

/-- The word whose bits above `nbits` are 0 and whose other bits are those of the number `w`. -/
def tableWord (nbits w : Nat) : Word := BitVec.ofNat 16 (w % 2 ^ nbits)

/-- What the decoder reads from an instruction of `nbits` bits whose bits are `w`, numbered as spec/opcode_table.json
numbers them. Every instruction is one 16-bit word (30_encoding.md rule R53), so more than 16 bits are no
instruction. -/
def decodeTableWord (nbits w : Nat) : Option Instr :=
  if nbits ≤ 16 then some (decode (tableWord nbits w)) else none

end Sys2Proof
end

