-- ==== Sys2Proof/Config.lean ====
section
/-! DEFINITION. What is fixed for the machine from outside its rules: the one OPEN parameter, a free value, and the
address at which execution starts. -/

namespace Sys2Proof.Config

/-- `PC_OVERFLOW_MSG`: the bytes written when the PC-overflow stop is taken. OPEN in the spec (92_eei_decisions.md
D6): a finite byte string, possibly empty, about which nothing is known. DESIGN CHOICE, safe: notes/assumptions/6.md. -/
opaque pcOverflowMsg : List Byte

/-- `PC_START`: the program counter at the start of execution (00_scope.md section 3, 70_reset_and_hazards.md rule
R141). DEDUCED by the spec (D3), unsafe: notes/assumptions/3.md. -/
def pcStart : Word := 0x3000#16

end Sys2Proof.Config
end

