-- ==== Sys2Proof/Machine/State.lean ====
section
/-! DEFINITION. The state of the machine, its stop causes, and the state right after reset (10_state.md). -/

namespace Sys2Proof.Machine

/-- Why the instruction cycle ended (60_exceptions.md rule R120). -/
inductive StopCause where
  /-- TRAP with vector 0x25: the normal end (43_trap.md rule R106). -/
  | halt
  /-- A word with bits 15:12 = 0x8 was executed (44_illegal.md rule R115). -/
  | illegalRti
  /-- A word with bits 15:12 = 0xD was executed (44_illegal.md rule R116). -/
  | illegalRes
  /-- A step began with `pc` = 0xFFFF (60_exceptions.md rule R121). -/
  | pcOverflow
  deriving DecidableEq, Repr

/-- The run state (10_state.md rule R20). -/
inductive RunState where
  /-- RUNNING: the next step is a fetch at `pc`. -/
  | running
  /-- WAIT_GETC: a GETC is blocked on an empty `kbq`. -/
  | waitGetc
  /-- WAIT_IN: an IN has written its prompt and is blocked on an empty `kbq`. -/
  | waitIn
  /-- STOPPED(cause): absorbing, only `reset` leaves it. -/
  | stopped (cause : StopCause)
  deriving DecidableEq, Repr

/-- The memory array (10_state.md rule R14), as the bytes that are not 0, by rising key: the cell of word address `a`
is the two bytes with keys `2a` (bits 15:8) and `2a + 1` (bits 7:0). The machine reads and writes whole words only, so
the split is not observable (20_memory.md rule R38; DESIGN CHOICE, safe, notes/assumptions/1.md). -/
abbrev Memory := List Host.Cell

/-- What a key that is not listed reads as: memory is "initialized to zero" (10_state.md rule R24). -/
def Memory.unlisted : Byte := 0#8

/-- How many byte keys there are: 65,536 cells of two bytes. -/
def Memory.size : Nat := 131072

/-- The whole state of the core: `( x[0..7], pc, cond, mem, run, kbq, out )` (10_state.md). KBSR and KBDR are the
memory cells 0xFE00 and 0xFE02 (10_state.md rules R15, R16) and have no second home here. -/
structure State where
  /-- The general registers R0..R7 (10_state.md rule R10). -/
  x : Vector Word 8
  /-- The program counter, a word address (10_state.md rule R11). -/
  pc : Word
  /-- The condition register: bit 2 NEG, bit 1 ZRO, bit 0 POS (10_state.md rule R12). -/
  cond : Word
  /-- The memory array (10_state.md rule R14). -/
  mem : Memory
  /-- The run state (10_state.md rule R20). -/
  run : RunState
  /-- The keyboard input channel, its head first (10_state.md rule R21). -/
  kbq : List Byte
  /-- The character output channel, oldest byte first (10_state.md rule R22). -/
  out : List Byte
  deriving DecidableEq, Repr

/-- Why a step stops the model. -/
inductive Fault where
  /-- Raised by `step` alone, from a state that is already STOPPED(cause): "the core has no step in it"
  (60_exceptions.md rule R120). No instruction's meaning raises it: an instruction that stops the machine answers the
  STOPPED state. Safe: nothing happens after it (DESIGN CHOICE, notes/assumptions/14.md). -/
  | stopped (cause : StopCause)
  deriving DecidableEq, Repr

/-- Why the model gives no meaning. -/
inductive Refusal where
  /-- Raised by `exec` for an instruction of the opcode table that has no meaning yet; no arm of this model does.
  Safe: the model says nothing of that instruction. -/
  | notModelled (mnemonic : String)
  deriving DecidableEq, Repr

/-- The state after `reset` and before the host's memory load (10_state.md rule R24, 70_reset_and_hazards.md rule R140).
The registers and `cond` are 0 by the spec's decision D2 (notes/assumptions/2.md). The reset does not touch `kbq`; this
constant takes a queue in which the host has put nothing (DESIGN CHOICE, unsafe, notes/assumptions/4.md), and
`State.hostReset` keeps any queue. -/
def State.reset : State where
  x := Vector.replicate 8 0#16
  pc := Config.pcStart
  cond := 0x0000#16
  mem := []
  run := .running
  kbq := []
  out := []

end Sys2Proof.Machine
end

