-- ==== Sys2Proof/Machine/Ops.lean ====
section
/-! DEFINITION. The operations over memory, registers and channels that the meanings share: memory by bytes and by
words, the register file, the gated read and the store (20_memory.md), the channels (10_state.md rules R21, R22), the
stop (60_exceptions.md rule R120) and the fetch (30_encoding.md rule R50). -/

namespace Sys2Proof.Machine

/-! ### The memory array -/

/-- The byte with key `k`. -/
def Memory.readByte : Memory → Nat → Byte
  | [], _ => Memory.unlisted
  | (key, b) :: m, k => if key = k then b else Memory.readByte m k

/-- `m` with one more entry, before the first greater key. -/
def Memory.insertByte (k : Nat) (b : Byte) : Memory → Memory
  | [] => [(k, b)]
  | c :: m => if k < c.1 then (k, b) :: c :: m else c :: Memory.insertByte k b m

/-- `m` without the entries of key `k`. -/
def Memory.dropKey (m : Memory) (k : Nat) : Memory := m.filter fun c => c.1 ≠ k

/-- `m` with the byte of key `k` set to `b`; a byte equal to what an unlisted key reads as is not listed. -/
def Memory.writeByte (m : Memory) (k : Nat) (b : Byte) : Memory :=
  if b = Memory.unlisted then Memory.dropKey m k else Memory.insertByte k b (Memory.dropKey m k)

/-- The key of bits 15:8 of the cell `a`. -/
def highKey (a : Word) : Nat := 2 * a.toNat

/-- The key of bits 7:0 of the cell `a`. -/
def lowKey (a : Word) : Nat := 2 * a.toNat + 1

/-- Bits 15:8 of a word. -/
def highByte (w : Word) : Byte := w.extractLsb' 8 8

/-- Bits 7:0 of a word. -/
def lowByte (w : Word) : Byte := w.extractLsb' 0 8

/-- The content of the cell `a`. -/
def Memory.readWord (m : Memory) (a : Word) : Word :=
  m.readByte (highKey a) ++ m.readByte (lowKey a)

/-- `m` with the cell `a` holding `w`. -/
def Memory.writeWord (m : Memory) (a w : Word) : Memory :=
  (m.writeByte (highKey a) (highByte w)).writeByte (lowKey a) (lowByte w)

/-- The canonical form: keys strictly rising, none above the last cell's, no byte equal to what an unlisted key reads
as. -/
abbrev Memory.wf (m : Memory) : Prop :=
  m.Pairwise (fun c d => c.1 < d.1) ∧ ∀ c ∈ m, c.1 < Memory.size ∧ c.2 ≠ Memory.unlisted

/-! ### Updates of one field -/

/-- `s` with the general register `i` holding `v` (00_scope.md section 5.2, `x[i] <- v`). -/
def State.setX (s : State) (i : Reg) (v : Word) : State := { s with x := s.x.set i v }

/-- `s` with the program counter `v`. -/
def State.setPc (s : State) (v : Word) : State := { s with pc := v }

/-- `s` with the condition register `v`. -/
def State.setCond (s : State) (v : Word) : State := { s with cond := v }

/-- `s` with the memory `m`. -/
def State.setMem (s : State) (m : Memory) : State := { s with mem := m }

/-- `s` with the run state `r`. -/
def State.setRun (s : State) (r : RunState) : State := { s with run := r }

/-- `s` with the input queue `q`. -/
def State.setKbq (s : State) (q : List Byte) : State := { s with kbq := q }

/-! ### Registers -/

/-- The general register `i` (00_scope.md section 5.2, `x[i]`). No register is hardwired (10_state.md rule R10). -/
def State.getX (s : State) (i : Reg) : Word := s.x[i]

/-- The register file by index 0..9 (10_state.md rule R13): 0..7 are R0..R7, 8 is the PC and 9 is COND by the spec's
decision D4 (notes/assumptions/5.md). No instruction reaches an index above 7. -/
def State.readFile (s : State) (i : Fin 10) : Word :=
  if h : i.val < 8 then s.getX ⟨i.val, h⟩ else if i = 8 then s.pc else s.cond

/-- Writing the register file by index 0..9 (10_state.md rule R13). -/
def State.writeFile (s : State) (i : Fin 10) (v : Word) : State :=
  if h : i.val < 8 then s.setX ⟨i.val, h⟩ v else if i = 8 then s.setPc v else s.setCond v

/-! ### Memory cells, the keyboard gate, loads and stores -/

/-- `KBSR`, the keyboard status register's address (10_state.md rule R15). -/
def kbsrAddr : Word := 0xFE00#16

/-- `KBDR`, the keyboard data register's address (10_state.md rule R16). -/
def kbdrAddr : Word := 0xFE02#16

/-- `KB_READY`, the value of a ready status (00_scope.md section 3). -/
def kbReady : Word := 0x8000#16

/-- `zext_8` (00_scope.md rule R4). -/
def zext8 (b : Byte) : Word := b.setWidth 16

/-- `mem[a]`: the raw content of a cell, with no gate (00_scope.md section 5.2). -/
def State.cell (s : State) (a : Word) : Word := s.mem.readWord a

/-- `mem[a] <- v`: the raw write of a cell. -/
def State.setCell (s : State) (a v : Word) : State := s.setMem (s.mem.writeWord a v)

/-- `KbPoll()` (20_memory.md rule R33): a queued byte is moved to KBDR and KBSR reads ready; with none queued KBSR
reads 0 and KBDR keeps its content. -/
def State.kbPoll (s : State) : State :=
  match s.kbq with
  | [] => s.setCell kbsrAddr 0x0000#16
  | b :: q => ((s.setKbq q).setCell kbsrAddr kbReady).setCell kbdrAddr (zext8 b)

/-- The state a gated read of `a` leaves: polled when `a` is KBSR, else unchanged (20_memory.md rule R31). -/
def State.gate (s : State) (a : Word) : State := if a = kbsrAddr then s.kbPoll else s

/-- `MemRead(a, 16)` (20_memory.md rule R31): the word and the state after the read. Every read of the core is this one
(20_memory.md rule R32, the spec's decision D5, notes/assumptions/8.md). -/
def State.memRead (s : State) (a : Word) : Word × State := ((s.gate a).cell a, s.gate a)

/-- `MemWrite(a, 16, v)` (20_memory.md rule R36): unconditional, with no side effect (rule R37). -/
def State.memWrite (s : State) (a v : Word) : State := s.setCell a v

/-! ### The output channel -/

/-- `OutByte` for each byte of `bs`, in order (10_state.md rule R22; notes/assumptions/12.md). -/
def State.outBytes (s : State) (bs : List Byte) : State := { s with out := s.out ++ bs }

/-- `OutByte(b)` (10_state.md rule R22). -/
def State.outByte (s : State) (b : Byte) : State := s.outBytes [b]

/-! ### The stop, the machine's only exception -/

/-- `raise Stop(cause)` (60_exceptions.md rule R120): the run state is written and nothing is saved, masked or vectored
(rule R125). There is no return from it (rule R126). -/
def State.raiseStop (s : State) (cause : StopCause) : State := s.setRun (.stopped cause)

/-- The PC-overflow stop (60_exceptions.md rule R121): the message goes to `out`, and nothing is fetched. -/
def State.pcOverflowStop (s : State) : State :=
  (s.outBytes Config.pcOverflowMsg).raiseStop .pcOverflow

/-! ### The fetch -/

/-- The value of `pc` from which nothing is fetched (30_encoding.md rule R50, 60_exceptions.md rule R121). -/
def pcLast : Word := 0xFFFF#16

/-- `ir <- MemRead(pc, 16); pc <- pc + 1` (30_encoding.md rule R50): the word and the state a handler starts from. -/
def State.fetch (s : State) : Word × State :=
  ((s.memRead s.pc).1, (s.memRead s.pc).2.setPc (s.pc + 1#16))

/-- The address `placeFetchWord` stores at: the fetch address, unless a word stored there is not what a fetch reads (0xFFFF
is never fetched and 0xFE00 is polled), where it is the entry point 0x3000. -/
def State.fetchPlace (s : State) : Word :=
  if s.pc = pcLast ∨ s.pc = kbsrAddr then Config.pcStart else s.pc

/-- `s` set up so that the next step fetches `w`: the host's memory load (70_reset_and_hazards.md rule R146;
notes/assumptions/23.md). -/
def State.placeFetchWord (s : State) (w : Word) : State :=
  ((s.setCell s.fetchPlace w).setPc s.fetchPlace).setRun .running

end Sys2Proof.Machine
end

