-- ==== Sys2Proof/Machine/Flags.lean ====
section
/-! DEFINITION. The condition register: how it is set and how a branch reads it (00_scope.md rules R5, R6;
10_state.md rule R12; 42_control.md rule R90). -/

namespace Sys2Proof.Machine

/-- `FL_POS` = 0b001 (00_scope.md section 3). -/
def flPos : Word := 0x0001#16

/-- `FL_ZRO` = 0b010. -/
def flZro : Word := 0x0002#16

/-- `FL_NEG` = 0b100. -/
def flNeg : Word := 0x0004#16

/-- The condition a value sets: NEG iff bit 15 is set, ZRO iff the value is zero, POS otherwise (00_scope.md rule R5). -/
def condOf (v : Word) : Word :=
  if v.getLsbD 15 then flNeg else if v = 0x0000#16 then flZro else flPos

/-- `setcc(i)` (00_scope.md rule R5): from the value now in register `i`. Called by ADD, AND, NOT, LD, LDI, LDR and LEA
only (rule R6). -/
def State.setcc (s : State) (i : Reg) : State := s.setCond (condOf (s.getX i))

/-- The end of a flag-setting instruction: the destination is written, then its flags are set. -/
def State.setXcc (s : State) (i : Reg) (v : Word) : State := (s.setX i v).setcc i

/-- `take` of 42_control.md rule R90: some selected flag is set in `cond`. -/
def branchTaken (n z p : Bool) (cond : Word) : Bool :=
  (n && cond.getLsbD 2) || (z && cond.getLsbD 1) || (p && cond.getLsbD 0)

end Sys2Proof.Machine
end

