-- ==== Sys2Proof/Machine/Operands.lean ====
section
/-! DEFINITION. The operand forms: sign extension of an immediate field (00_scope.md rule R3, 30_encoding.md rule R54) and
the three addressing modes (41_load_store.md, opening table). `pc` is the incremented program counter (30_encoding.md rule
R51), and sums are modulo 2^16 (00_scope.md rule R1). -/

namespace Sys2Proof.Machine

/-- `sext_N` of an N-bit field (00_scope.md rule R3). -/
def sext {n : Nat} (v : BitVec n) : Word := v.signExtend 16

/-- PC-relative with a 9-bit offset: `pc + sext_9(PCoffset9)`. -/
def State.pcRel9 (s : State) (off : BitVec 9) : Word := s.pc + sext off

/-- PC-relative with an 11-bit offset: `pc + sext_11(PCoffset11)` (42_control.md rule R93). -/
def State.pcRel11 (s : State) (off : BitVec 11) : Word := s.pc + sext off

/-- Base plus offset: `x[BaseR] + sext_6(offset6)`. -/
def State.baseOff (s : State) (baseR : Reg) (off : BitVec 6) : Word := s.getX baseR + sext off

/-- Indirect: the pointer is a gated read of the PC-relative address; the pointer and the state after that read. -/
def State.indirect (s : State) (off : BitVec 9) : Word × State := s.memRead (s.pcRel9 off)

end Sys2Proof.Machine
end

