-- ==== Sys2Proof/Machine/Alu.lean ====
section
/-! DEFINITION. ADD, AND and NOT (40_alu.md). The sources are read before the destination is written. -/

namespace Sys2Proof.Machine

/-- ADD, register form (40_alu.md rule R70). -/
def execAddReg (dr sr1 sr2 : Reg) (s : State) : Host.Outcome State Fault Refusal :=
  .next (s.setXcc dr (s.getX sr1 + s.getX sr2))

/-- ADD, immediate form (40_alu.md rule R71). -/
def execAddImm (dr sr1 : Reg) (imm5 : BitVec 5) (s : State) : Host.Outcome State Fault Refusal :=
  .next (s.setXcc dr (s.getX sr1 + sext imm5))

/-- AND, register form (40_alu.md rule R72). -/
def execAndReg (dr sr1 sr2 : Reg) (s : State) : Host.Outcome State Fault Refusal :=
  .next (s.setXcc dr (s.getX sr1 &&& s.getX sr2))

/-- AND, immediate form, the immediate sign-extended (40_alu.md rule R73). -/
def execAndImm (dr sr1 : Reg) (imm5 : BitVec 5) (s : State) : Host.Outcome State Fault Refusal :=
  .next (s.setXcc dr (s.getX sr1 &&& sext imm5))

/-- NOT (40_alu.md rule R74). -/
def execNot (dr sr : Reg) (s : State) : Host.Outcome State Fault Refusal :=
  .next (s.setXcc dr (~~~(s.getX sr)))

end Sys2Proof.Machine
end

