-- ==== Sys2Proof/Machine/Control.lean ====
section
/-! DEFINITION. BR, JMP, RET, JSR and JSRR (42_control.md). None writes `cond`, and there are no delay slots. -/

namespace Sys2Proof.Machine

/-- The link register R7 (42_control.md rules R93, R94; 10_state.md rule R10). -/
def linkReg : Reg := 7

/-- `x[7] <- pc`: the return address is the instruction after the call. -/
def State.link (s : State) : State := s.setX linkReg s.pc

/-- `pc <- x[r]`. -/
def State.jumpTo (s : State) (r : Reg) : State := s.setPc (s.getX r)

/-- BR (42_control.md rule R90). -/
def execBr (n z p : Bool) (off : BitVec 9) (s : State) : Host.Outcome State Fault Refusal :=
  .next (if branchTaken n z p s.cond then s.setPc (s.pcRel9 off) else s)

/-- JMP (42_control.md rule R91). -/
def execJmp (baseR : Reg) (s : State) : Host.Outcome State Fault Refusal :=
  .next (s.jumpTo baseR)

/-- RET (42_control.md rule R92): JMP with BaseR = 7. -/
def execRet (s : State) : Host.Outcome State Fault Refusal :=
  .next (s.jumpTo linkReg)

/-- JSR (42_control.md rule R93): the target is from the incremented `pc`. -/
def execJsr (off : BitVec 11) (s : State) : Host.Outcome State Fault Refusal :=
  .next (s.link.setPc (s.pcRel11 off))

/-- JSRR (42_control.md rule R94): the target register is read after R7 is written, so `JSRR R7` falls through (the
spec's decision D8, notes/assumptions/11.md). -/
def execJsrr (baseR : Reg) (s : State) : Host.Outcome State Fault Refusal :=
  .next (s.link.jumpTo baseR)

end Sys2Proof.Machine
end

