-- ==== Sys2Proof/Machine/Illegal.lean ====
section
/-! DEFINITION. RTI and RES (44_illegal.md): each stops the machine, writes nothing to `out` and changes nothing else
(the spec's decision D14, notes/assumptions/18.md). -/

namespace Sys2Proof.Machine

/-- RTI (44_illegal.md rule R115). -/
def execRti (s : State) : Host.Outcome State Fault Refusal := .next (s.raiseStop .illegalRti)

/-- RES (44_illegal.md rule R116). -/
def execRes (s : State) : Host.Outcome State Fault Refusal := .next (s.raiseStop .illegalRes)

end Sys2Proof.Machine
end

