-- ==== Sys2Proof/Machine/LoadStore.lean ====
section
/-! DEFINITION. LD, LDI, LDR, LEA, ST, STI and STR (41_load_store.md). Loads and pointer reads are gated; stores are not. -/

namespace Sys2Proof.Machine

/-- A load from the address `a`: `x[DR] <- MemRead(a, 16); setcc(DR)`. -/
def State.loadFrom (s : State) (dr : Reg) (a : Word) : State :=
  (s.memRead a).2.setXcc dr (s.memRead a).1

/-- LD (41_load_store.md rule R80). -/
def execLd (dr : Reg) (off : BitVec 9) (s : State) : Host.Outcome State Fault Refusal :=
  .next (s.loadFrom dr (s.pcRel9 off))

/-- LDI (41_load_store.md rule R81): the pointer is read first, the data second. -/
def execLdi (dr : Reg) (off : BitVec 9) (s : State) : Host.Outcome State Fault Refusal :=
  .next ((s.indirect off).2.loadFrom dr (s.indirect off).1)

/-- LDR (41_load_store.md rule R82). -/
def execLdr (dr baseR : Reg) (off : BitVec 6) (s : State) : Host.Outcome State Fault Refusal :=
  .next (s.loadFrom dr (s.baseOff baseR off))

/-- LEA (41_load_store.md rule R83): no memory access, and the flags are set. -/
def execLea (dr : Reg) (off : BitVec 9) (s : State) : Host.Outcome State Fault Refusal :=
  .next (s.setXcc dr (s.pcRel9 off))

/-- ST (41_load_store.md rule R84). -/
def execSt (sr : Reg) (off : BitVec 9) (s : State) : Host.Outcome State Fault Refusal :=
  .next (s.memWrite (s.pcRel9 off) (s.getX sr))

/-- STI (41_load_store.md rule R85): a gated read of the pointer, then the store. -/
def execSti (sr : Reg) (off : BitVec 9) (s : State) : Host.Outcome State Fault Refusal :=
  .next ((s.indirect off).2.memWrite (s.indirect off).1 ((s.indirect off).2.getX sr))

/-- STR (41_load_store.md rule R86). -/
def execStr (sr baseR : Reg) (off : BitVec 6) (s : State) : Host.Outcome State Fault Refusal :=
  .next (s.memWrite (s.baseOff baseR off) (s.getX sr))

end Sys2Proof.Machine
end

