-- ==== Sys2Proof/Machine/Trap.lean ====
section
/-! DEFINITION. TRAP and its service routines (43_trap.md), and the end of the two blocking reads. A routine runs to its
end inside the step; no routine writes `cond`, `pc` or R7 (rule R108, notes/assumptions/13.md). -/

namespace Sys2Proof.Machine

/-- `IN_PROMPT`, the 19 bytes of `Enter a character: ` (43_trap.md rule R104; ASCII, PRESUMED by the spec, D20,
notes/assumptions/19.md). -/
def inPrompt : List Byte :=
  [0x45#8, 0x6E#8, 0x74#8, 0x65#8, 0x72#8, 0x20#8, 0x61#8, 0x20#8, 0x63#8, 0x68#8,
    0x61#8, 0x72#8, 0x61#8, 0x63#8, 0x74#8, 0x65#8, 0x72#8, 0x3A#8, 0x20#8]

/-- `HALT_MSG`, the five bytes `HALT` and a line feed (43_trap.md rule R106; notes/assumptions/19.md). -/
def haltMsg : List Byte := [0x48#8, 0x41#8, 0x4C#8, 0x54#8, 0x0A#8]

/-- The operand register of the routines, R0 (10_state.md rule R10). -/
def trapReg : Reg := 0

/-! ### The blocking reads -/

/-- The end of GETC: the byte, zero-extended, into R0 (43_trap.md rule R101). -/
def State.takeGetc (s : State) (b : Byte) : State := s.setX trapReg (zext8 b)

/-- The end of IN: the echo, then the byte, zero-extended, into R0 (43_trap.md rule R104). -/
def State.takeIn (s : State) (b : Byte) : State := (s.outByte b).setX trapReg (zext8 b)

/-- `AwaitKb()` and the rest of the routine (43_trap.md rule R109): with `kbq` empty the core holds in the wait state
`hold`; else the head byte is taken, the routine ends with `take` and `run` is RUNNING (the spec's decision D13,
notes/assumptions/17.md). -/
def State.awaitKb (s : State) (hold : RunState) (take : State → Byte → State) : State :=
  match s.kbq with
  | [] => s.setRun hold
  | b :: q => take ((s.setKbq q).setRun .running) b

/-- GETC from its blocking read on: what a GETC does, and what a step in WAIT_GETC does. -/
def State.awaitGetc (s : State) : State := s.awaitKb .waitGetc State.takeGetc

/-- IN from its blocking read on: what an IN does after its prompt, and what a step in WAIT_IN does. -/
def State.awaitIn (s : State) : State := s.awaitKb .waitIn State.takeIn

/-! ### The string routines -/

/-- What PUTS writes for a word: its low byte (43_trap.md rule R103). -/
def putsBytes (w : Word) : List Byte := [lowByte w]

/-- What PUTSP writes for a word: its low byte, then its high byte if that is not 0 (43_trap.md rule R105). -/
def putspBytes (w : Word) : List Byte :=
  if highByte w = 0x00#8 then [lowByte w] else [lowByte w, highByte w]

/-- The loop of 43_trap.md rules R103 and R105 from the address `a`: gated reads until a zero word, `bytes w` to `out`
for each word before it, the address advancing modulo 2^16 (notes/assumptions/15.md). The first argument bounds the
number of reads. -/
def stringLoop (bytes : Word → List Byte) : Nat → Word → State → State
  | 0, _, s => s
  | n + 1, a, s =>
    if (s.memRead a).1 = 0x0000#16 then (s.memRead a).2
    else stringLoop bytes n (a + 1#16) ((s.memRead a).2.outBytes (bytes (s.memRead a).1))

/-- The bound the spec derives on the reads of a string (43_trap.md rule R103): "at most (length of kbq + 1) × 65536".
`Laws.stringLoop_bound_enough` (Laws/Strings.lean) proves that the loop ends within it, so it cuts no string short. -/
def State.stringBound (s : State) : Nat := (s.kbq.length + 1) * 65536

/-- The string routine from the address `a`. -/
def State.writeString (s : State) (bytes : Word → List Byte) (a : Word) : State :=
  stringLoop bytes s.stringBound a s

/-! ### The routines -/

/-- The routine of GETC (43_trap.md rule R101). -/
def State.getcRoutine (s : State) : State := s.awaitGetc

/-- The routine of OUT (43_trap.md rule R102). -/
def State.outRoutine (s : State) : State := s.outByte (lowByte (s.getX trapReg))

/-- The routine of PUTS (43_trap.md rule R103). -/
def State.putsRoutine (s : State) : State := s.writeString putsBytes (s.getX trapReg)

/-- The routine of IN (43_trap.md rule R104): the prompt is written before the routine waits. -/
def State.inRoutine (s : State) : State := (s.outBytes inPrompt).awaitIn

/-- The routine of PUTSP (43_trap.md rule R105). -/
def State.putspRoutine (s : State) : State := s.writeString putspBytes (s.getX trapReg)

/-- The routine of HALT (43_trap.md rule R106). -/
def State.haltRoutine (s : State) : State := (s.outBytes haltMsg).raiseStop .halt

/-- UnknownTrap (43_trap.md rule R107): nothing changes (the spec's decision D10, notes/assumptions/9.md). -/
def State.unknownTrap (s : State) : State := s

/-- The dispatch of TRAP on its vector (43_trap.md rule R100). -/
def State.trapService (s : State) (v : BitVec 8) : State :=
  if v = 0x20#8 then s.getcRoutine
  else if v = 0x21#8 then s.outRoutine
  else if v = 0x22#8 then s.putsRoutine
  else if v = 0x23#8 then s.inRoutine
  else if v = 0x24#8 then s.putspRoutine
  else if v = 0x25#8 then s.haltRoutine
  else s.unknownTrap

/-- GETC (43_trap.md rule R101). -/
def execGetc (s : State) : Host.Outcome State Fault Refusal := .next s.getcRoutine

/-- OUT (43_trap.md rule R102). -/
def execOut (s : State) : Host.Outcome State Fault Refusal := .next s.outRoutine

/-- PUTS (43_trap.md rule R103). -/
def execPuts (s : State) : Host.Outcome State Fault Refusal := .next s.putsRoutine

/-- IN (43_trap.md rule R104). -/
def execInp (s : State) : Host.Outcome State Fault Refusal := .next s.inRoutine

/-- PUTSP (43_trap.md rule R105). -/
def execPutsp (s : State) : Host.Outcome State Fault Refusal := .next s.putspRoutine

/-- HALT (43_trap.md rule R106). -/
def execHalt (s : State) : Host.Outcome State Fault Refusal := .next s.haltRoutine

/-- TRAP (43_trap.md rules R100 and R107). The decoder gives this instruction for vectors that select no routine; a
service vector runs its routine here too, as rule R100 dispatches it. -/
def execTrap (v : BitVec 8) (s : State) : Host.Outcome State Fault Refusal := .next (s.trapService v)

end Sys2Proof.Machine
end

