-- ==== Sys2Proof/Machine/Step.lean ====
section
/-! DEFINITION. One step of the core (30_encoding.md rule R50), and the host's way to place an instruction. -/

namespace Sys2Proof.Machine

/-- One step. RUNNING: the PC-overflow stop, or a fetch and its handler (30_encoding.md rule R50). A wait state: the
blocked routine ends if a byte has come, and else the core holds (43_trap.md rule R109, notes/assumptions/17.md).
STOPPED: no step (60_exceptions.md rule R120, notes/assumptions/14.md). -/
def step (s : State) : Host.Outcome State Fault Refusal :=
  match s.run with
  | .running =>
    if s.pc = pcLast then .next s.pcOverflowStop
    else exec (decode s.fetch.1) s.fetch.2
  | .waitGetc => .next s.awaitGetc
  | .waitIn => .next s.awaitIn
  | .stopped cause => .fault (.stopped cause)

/-- `s` with the instruction whose bits are `w`, numbered as spec/opcode_table.json numbers them, where `step` fetches its
next instruction (notes/assumptions/23.md). -/
def State.withFetchWord (s : State) (nbits w : Nat) : State := s.placeFetchWord (tableWord nbits w)

end Sys2Proof.Machine
end

