-- ==== Sys2Proof/Machine/HostMoves.lean ====
section
/-! DEFINITION. What the host may do to the core (00_scope.md section 4, 70_reset_and_hazards.md rules R140, R146 to R148).
No step calls these: a host move happens between steps or during a hold (notes/assumptions/21.md). -/

namespace Sys2Proof.Machine

/-- The host appends a byte to `kbq` (70_reset_and_hazards.md rule R148). -/
def State.hostAppend (s : State) (b : Byte) : State := s.setKbq (s.kbq ++ [b])

/-- The host asserts `reset`: every piece of state takes its reset value, and `kbq` stays as the host left it
(10_state.md rule R24, 70_reset_and_hazards.md rule R140). -/
def State.hostReset (s : State) : State := State.reset.setKbq s.kbq

/-- The words of an image, written to consecutive cells from `a` on, with no gate (70_reset_and_hazards.md rule R147). -/
def State.loadWords : Word → List Word → State → State
  | _, [], s => s
  | a, w :: ws, s => State.loadWords (a + 1#16) ws (s.setCell a w)

/-- One image at its origin (70_reset_and_hazards.md rule R147). An image whose words run past 0xFFFF is not loaded: the
spec does not say what happens (N10; DESIGN CHOICE, safe, notes/assumptions/20.md). -/
def State.loadImage (s : State) (origin : Word) (ws : List Word) : Option State :=
  if origin.toNat + ws.length ≤ 65536 then some (State.loadWords origin ws s) else none

/-- Images in argument order, each over the earlier ones (70_reset_and_hazards.md rule R146). -/
def State.loadImages (s : State) : List (Word × List Word) → Option State
  | [] => some s
  | (origin, ws) :: rest => (s.loadImage origin ws).bind fun s' => s'.loadImages rest

/-- The big-endian words of a byte stream; an odd number of bytes gives none (N10; DESIGN CHOICE, safe,
notes/assumptions/20.md). -/
def wordsOfBytes : List Byte → Option (List Word)
  | [] => some []
  | [_] => none
  | hi :: lo :: rest => (wordsOfBytes rest).map fun ws => (hi ++ lo : Word) :: ws

/-- The big-endian byte stream of some words. -/
def bytesOfWords : List Word → List Byte
  | [] => []
  | w :: ws => highByte w :: lowByte w :: bytesOfWords ws

/-- The origin and the words of an image file: its first word is the origin (70_reset_and_hazards.md rule R147). A file shorter
than two bytes has no origin and is no image: the spec does not say what happens (N10; DESIGN CHOICE, safe,
notes/assumptions/20.md), nor for an odd number of bytes. -/
def parseImage (file : List Byte) : Option (Word × List Word) :=
  match wordsOfBytes file with
  | some (origin :: ws) => some (origin, ws)
  | _ => none

end Sys2Proof.Machine
end

