-- ==== Sys2Proof/Safety.lean ====
section
/-! DEFINITION. The terms claims use: the legal values of `cond`, the invariant of the state, the states a run reaches, and
what an instruction may write. -/

namespace Sys2Proof.Machine

/-- The value set of `cond` (10_state.md rule R25). -/
abbrev legalCond (c : Word) : Prop := c = 0x0000#16 ∨ c = flPos ∨ c = flZro ∨ c = flNeg

/-- The invariant of the state between steps. -/
structure State.Inv (s : State) : Prop where
  /-- Memory is in canonical form. -/
  mem_wf : s.mem.wf
  /-- `cond` is in its value set (10_state.md rule R25). -/
  cond_legal : legalCond s.cond
  /-- A blocked IN has its prompt at the end of `out` (10_state.md rule R20). -/
  prompt_written : s.run = .waitIn → inPrompt <:+ s.out
  /-- A normal end has `HALT_MSG` at the end of `out` (70_reset_and_hazards.md rule R149). -/
  halt_written : s.run = .stopped .halt → haltMsg <:+ s.out
  /-- A PC overflow has its message at the end of `out` (60_exceptions.md rule R121). -/
  overflow_written : s.run = .stopped .pcOverflow → Config.pcOverflowMsg <:+ s.out
  /-- A PC overflow is recorded with `pc` = 0xFFFF (60_exceptions.md rule R120). -/
  overflow_pc : s.run = .stopped .pcOverflow → s.pc = pcLast
  /-- A blocked or stopped instruction left `pc` at its own address plus one, which is not 0: the increment never wraps
  (10_state.md rule R11). -/
  pc_not_wrapped : s.run ≠ .running → s.run ≠ .stopped .pcOverflow → s.pc ≠ 0x0000#16

/-- The states of a run: the host resets the core and overlays memory, and then the core steps and the host appends bytes to
`kbq` (70_reset_and_hazards.md rules R146, R148). -/
inductive Reachable : State → Prop
  /-- The state at the first step: reset, with the host's queue and the images it could load. -/
  | start (before : State) (images : List (Word × List Word)) (s : State)
      (loaded : before.hostReset.loadImages images = some s) : Reachable s
  /-- A step of the core. -/
  | step (s t : State) (reached : Reachable s) (stepped : Machine.step s = .next t) : Reachable t
  /-- The host appends a byte. -/
  | append (s : State) (b : Byte) (reached : Reachable s) : Reachable (s.hostAppend b)

/-- The destination of the seven instructions that call `setcc`, and nothing for the others (00_scope.md rule R6). -/
def flagDest : Instr → Option Reg
  | .addReg dr _ _ => some dr
  | .addImm dr _ _ => some dr
  | .andReg dr _ _ => some dr
  | .andImm dr _ _ => some dr
  | .not dr _ => some dr
  | .ld dr _ => some dr
  | .ldi dr _ => some dr
  | .ldr dr _ _ => some dr
  | .lea dr _ => some dr
  | .br _ _ _ _ => none
  | .st _ _ => none
  | .jsr _ => none
  | .jsrr _ => none
  | .str _ _ _ => none
  | .rti => none
  | .sti _ _ => none
  | .jmp _ => none
  | .ret => none
  | .res => none
  | .getc => none
  | .out => none
  | .puts => none
  | .inp => none
  | .putsp => none
  | .halt => none
  | .trap _ => none

/-- The general register an instruction may write, from the table of 10_state.md rule R10: DR; R7 for JSR and JSRR; R0 for
GETC and IN (also when `trap` spells them). -/
def writtenReg : Instr → Option Reg
  | .addReg dr _ _ => some dr
  | .addImm dr _ _ => some dr
  | .andReg dr _ _ => some dr
  | .andImm dr _ _ => some dr
  | .not dr _ => some dr
  | .ld dr _ => some dr
  | .ldi dr _ => some dr
  | .ldr dr _ _ => some dr
  | .lea dr _ => some dr
  | .br _ _ _ _ => none
  | .st _ _ => none
  | .jsr _ => some 7
  | .jsrr _ => some 7
  | .str _ _ _ => none
  | .rti => none
  | .sti _ _ => none
  | .jmp _ => none
  | .ret => none
  | .res => none
  | .getc => some 0
  | .out => none
  | .puts => none
  | .inp => some 0
  | .putsp => none
  | .halt => none
  | .trap v => if v = 0x20#8 ∨ v = 0x23#8 then some 0 else none

/-- The instructions that may write `pc`, from the table of 10_state.md rule R11. -/
def writesPc : Instr → Bool
  | .br _ _ _ _ => true
  | .jsr _ => true
  | .jsrr _ => true
  | .jmp _ => true
  | .ret => true
  | .addReg _ _ _ => false
  | .addImm _ _ _ => false
  | .andReg _ _ _ => false
  | .andImm _ _ _ => false
  | .not _ _ => false
  | .ld _ _ => false
  | .ldi _ _ => false
  | .ldr _ _ _ => false
  | .lea _ _ => false
  | .st _ _ => false
  | .sti _ _ => false
  | .str _ _ _ => false
  | .rti => false
  | .res => false
  | .getc => false
  | .out => false
  | .puts => false
  | .inp => false
  | .putsp => false
  | .halt => false
  | .trap _ => false

/-- The address an instruction stores to: ST, STI and STR only (20_memory.md rule R36). -/
def storeAddr : Instr → State → Option Word
  | .st _ off, s => some (s.pcRel9 off)
  | .sti _ off, s => some (s.indirect off).1
  | .str _ baseR off, s => some (s.baseOff baseR off)
  | .br _ _ _ _, _ => none
  | .addReg _ _ _, _ => none
  | .addImm _ _ _, _ => none
  | .ld _ _, _ => none
  | .jsr _, _ => none
  | .jsrr _, _ => none
  | .andReg _ _ _, _ => none
  | .andImm _ _ _, _ => none
  | .ldr _ _ _, _ => none
  | .rti, _ => none
  | .not _ _, _ => none
  | .ldi _ _, _ => none
  | .jmp _, _ => none
  | .ret, _ => none
  | .res, _ => none
  | .lea _ _, _ => none
  | .getc, _ => none
  | .out, _ => none
  | .puts, _ => none
  | .inp, _ => none
  | .putsp, _ => none
  | .halt, _ => none
  | .trap _, _ => none

/-- The address a load reads its data from: LD, LDR and LDI only, LDI's being the pointer its first read gives
(41_load_store.md rules R80 to R82). -/
def loadAddr : Instr → State → Option Word
  | .ld _ off, s => some (s.pcRel9 off)
  | .ldi _ off, s => some (s.indirect off).1
  | .ldr _ baseR off, s => some (s.baseOff baseR off)
  | .st _ _, _ => none
  | .sti _ _, _ => none
  | .str _ _ _, _ => none
  | .br _ _ _ _, _ => none
  | .addReg _ _ _, _ => none
  | .addImm _ _ _, _ => none
  | .jsr _, _ => none
  | .jsrr _, _ => none
  | .andReg _ _ _, _ => none
  | .andImm _ _ _, _ => none
  | .rti, _ => none
  | .not _ _, _ => none
  | .jmp _, _ => none
  | .ret, _ => none
  | .res, _ => none
  | .lea _ _, _ => none
  | .getc, _ => none
  | .out, _ => none
  | .puts, _ => none
  | .inp, _ => none
  | .putsp, _ => none
  | .halt, _ => none
  | .trap _, _ => none

/-- The key is none of the bytes of the cell `a`. -/
abbrev outside (k : Nat) (a : Word) : Prop := k ≠ highKey a ∧ k ≠ lowKey a

end Sys2Proof.Machine
end

