-- ==== Sys2Proof/Certificates/Slice0/Obligations.lean ====
section
/-! DEFINITION. The statements for the provers, from the numbered rules of spec/. Each names the rule it formalises, or, where it
rests on a choice the spec or the model made, the decision and the log entry. -/

namespace Sys2Proof.Claims

open Sys2Proof.Machine

/-- The condition register a value sets, written out from 00_scope.md rule R5: NEG = 4 iff bit 15 is set, ZRO = 2 iff the value is
zero, POS = 1 otherwise. -/
def FlagsFrom (v c : Word) : Prop :=
  (v.getLsbD 15 = true → c = 0x0004#16) ∧ (v = 0x0000#16 → c = 0x0002#16) ∧
  (v.getLsbD 15 = false → v ≠ 0x0000#16 → c = 0x0001#16)

/-- A flag-setting instruction's registers: `dr` holds `v`, every other general register is as before, `cond` is `v`'s, and `pc`,
`out` and `run` are as before. -/
def DestGets (dr : Reg) (v : Word) (s t : State) : Prop :=
  t.getX dr = v ∧ (∀ r, r ≠ dr → t.getX r = s.getX r) ∧ FlagsFrom v t.cond ∧
  t.pc = s.pc ∧ t.out = s.out ∧ t.run = s.run

/-- Nothing of memory or of the input queue changed. -/
def MemoryAndQueueKept (s t : State) : Prop := t.mem = s.mem ∧ t.kbq = s.kbq

/-- No general register and no flag changed. -/
def RegistersKept (s t : State) : Prop := (∀ r, t.getX r = s.getX r) ∧ t.cond = s.cond

/-- A gated read of `a` in `s` gives `w` and leaves the memory and the queue of `t` (20_memory.md rules R31, R33), written out. -/
def GatedReadGives (s : State) (a w : Word) (t : State) : Prop :=
  (a ≠ 0xFE00#16 → w = s.cell a ∧ MemoryAndQueueKept s t) ∧
  (a = 0xFE00#16 → s.kbq = [] →
    w = 0x0000#16 ∧ t.cell 0xFE00#16 = 0x0000#16 ∧ t.kbq = [] ∧
    ∀ k, outside k 0xFE00#16 → t.mem.readByte k = s.mem.readByte k) ∧
  (∀ b q, a = 0xFE00#16 → s.kbq = b :: q →
    w = 0x8000#16 ∧ t.cell 0xFE00#16 = 0x8000#16 ∧ t.cell 0xFE02#16 = b.setWidth 16 ∧ t.kbq = q ∧
    ∀ k, outside k 0xFE00#16 → outside k 0xFE02#16 → t.mem.readByte k = s.mem.readByte k)

/-- The word `v` was stored at `a`, and every byte outside it is as before. -/
def StoredAt (a v : Word) (s t : State) : Prop :=
  t.cell a = v ∧ ∀ k, outside k a → t.mem.readByte k = s.mem.readByte k

/-- `i` is a store of the register `sr`, in one of the three forms. -/
def IsStoreOf (i : Instr) (sr : Reg) : Prop :=
  (∃ off, i = .st sr off) ∨ (∃ off, i = .sti sr off) ∨ ∃ baseR off, i = .str sr baseR off

/-- `j` is a load into the register `dr`, in one of the three forms. -/
def IsLoadInto (j : Instr) (dr : Reg) : Prop :=
  (∃ off, j = .ld dr off) ∨ (∃ off, j = .ldi dr off) ∨ ∃ baseR off, j = .ldr dr baseR off

/-- No word of the image `im`, an origin and its words, is placed at `a`. -/
def Uncovered (im : Word × List Word) (a : Word) : Prop := ∀ j, j < im.2.length → a ≠ im.1 + BitVec.ofNat 16 j

/-- A stop for `cause` with everything but `run` and `out` kept. -/
def StoppedWith (cause : StopCause) (s t : State) : Prop :=
  t.run = .stopped cause ∧ RegistersKept s t ∧ t.pc = s.pc ∧ MemoryAndQueueKept s t

/-- What a string routine may change: `out` grows at its end, `kbq` loses bytes at its head, and only the two keyboard registers of
memory may be written (by the gate). -/
def StringRoutineFrame (s t : State) : Prop :=
  RegistersKept s t ∧ t.pc = s.pc ∧ t.run = s.run ∧ s.out <+: t.out ∧ t.kbq <:+ s.kbq ∧
  (∀ k, outside k 0xFE00#16 → outside k 0xFE02#16 → t.mem.readByte k = s.mem.readByte k) ∧
  (t.kbq = s.kbq → ∀ k, outside k 0xFE00#16 → t.mem.readByte k = s.mem.readByte k)

end Sys2Proof.Claims

open Sys2Proof Sys2Proof.Machine Sys2Proof.Claims

/-! ### Encoding -/

/-- Decode and encode agree, for every well-formed instruction with every operand at every value (30_encoding.md sections 2 to 5).
The ignored bits the encoder writes are the spec's notation (D17, log entry 10). -/
def Obligations.DecodeOfEncodeIsTheInstruction : Prop :=
  ∀ i : Instr, i.wellFormed = true → decode (encode i) = i

/-- Every word decodes to an instruction whose row of the opcode table it matches (30_encoding.md section 3), and that instruction is
well-formed: no word decodes to `jmp 7` or to `trap` with a service vector. The latter is the model's own spelling of the table's
rows, a DESIGN CHOICE, log entry 7. -/
def Obligations.DecodedWordLiesInItsRow : Prop :=
  ∀ w : Word, (decode w).wellFormed = true ∧ w &&& rowMask (decode w) = rowMatch (decode w)

/-- Two words decode alike exactly when they agree on every bit that is not ignored: the ignored bits take no part and every other
bit does (30_encoding.md section 4, the spec's decision D7, log entry 10). -/
def Obligations.ExactlyTheIgnoredBitsAreIgnored : Prop :=
  ∀ w v : Word, decode v = decode w ↔
    v &&& ~~~(ignoredBits (decode w)) = w &&& ~~~(ignoredBits (decode w))

/-- Words the spec writes out decode to what it says they are (95_test_vectors.md section 1.1 and sections 2.2 to 2.6). -/
def Obligations.SpecWordsDecodeAsTheSpecSays : Prop :=
  decode 0x1042#16 = .addReg 0 1 2 ∧ decode 0x1062#16 = .addImm 0 1 2#5 ∧
  decode 0x5042#16 = .andReg 0 1 2 ∧ decode 0x506F#16 = .andImm 0 1 15#5 ∧
  decode 0x907F#16 = .not 0 1 ∧ decode 0xA001#16 = .ldi 0 1#9 ∧ decode 0xF025#16 = .halt ∧
  decode 0x0402#16 = .br false true false 2#9 ∧ decode 0x7A7F#16 = .str 5 1 0x3F#6 ∧
  decode 0x41C0#16 = .jsrr 7 ∧ decode 0x4FFF#16 = .jsr 0x7FF#11 ∧ decode 0xC1C0#16 = .ret ∧
  decode 0x8FFF#16 = .rti ∧ decode 0xDABC#16 = .res ∧ decode 0xF026#16 = .trap 0x26#8

/-- For every opcode, the fields of a word are read where 30_encoding.md sections 2 and 3 put them, whatever the ignored bits are
(the spec's decision D7, log entry 10). -/
def Obligations.FieldsAreReadWhereTheSpecPutsThem : Prop :=
  ∀ w : Word,
    (w.extractLsb' 12 4 = 0x0#4 → decode w = .br (w.getLsbD 11) (w.getLsbD 10) (w.getLsbD 9) (w.extractLsb' 0 9)) ∧
    (w.extractLsb' 12 4 = 0x1#4 → w.getLsbD 5 = false →
      decode w = .addReg (w.extractLsb' 9 3).toFin (w.extractLsb' 6 3).toFin (w.extractLsb' 0 3).toFin) ∧
    (w.extractLsb' 12 4 = 0x1#4 → w.getLsbD 5 = true →
      decode w = .addImm (w.extractLsb' 9 3).toFin (w.extractLsb' 6 3).toFin (w.extractLsb' 0 5)) ∧
    (w.extractLsb' 12 4 = 0x2#4 → decode w = .ld (w.extractLsb' 9 3).toFin (w.extractLsb' 0 9)) ∧
    (w.extractLsb' 12 4 = 0x3#4 → decode w = .st (w.extractLsb' 9 3).toFin (w.extractLsb' 0 9)) ∧
    (w.extractLsb' 12 4 = 0x4#4 → w.getLsbD 11 = true → decode w = .jsr (w.extractLsb' 0 11)) ∧
    (w.extractLsb' 12 4 = 0x4#4 → w.getLsbD 11 = false → decode w = .jsrr (w.extractLsb' 6 3).toFin) ∧
    (w.extractLsb' 12 4 = 0x5#4 → w.getLsbD 5 = false →
      decode w = .andReg (w.extractLsb' 9 3).toFin (w.extractLsb' 6 3).toFin (w.extractLsb' 0 3).toFin) ∧
    (w.extractLsb' 12 4 = 0x5#4 → w.getLsbD 5 = true →
      decode w = .andImm (w.extractLsb' 9 3).toFin (w.extractLsb' 6 3).toFin (w.extractLsb' 0 5)) ∧
    (w.extractLsb' 12 4 = 0x6#4 →
      decode w = .ldr (w.extractLsb' 9 3).toFin (w.extractLsb' 6 3).toFin (w.extractLsb' 0 6)) ∧
    (w.extractLsb' 12 4 = 0x7#4 →
      decode w = .str (w.extractLsb' 9 3).toFin (w.extractLsb' 6 3).toFin (w.extractLsb' 0 6)) ∧
    (w.extractLsb' 12 4 = 0x8#4 → decode w = .rti) ∧
    (w.extractLsb' 12 4 = 0x9#4 → decode w = .not (w.extractLsb' 9 3).toFin (w.extractLsb' 6 3).toFin) ∧
    (w.extractLsb' 12 4 = 0xA#4 → decode w = .ldi (w.extractLsb' 9 3).toFin (w.extractLsb' 0 9)) ∧
    (w.extractLsb' 12 4 = 0xB#4 → decode w = .sti (w.extractLsb' 9 3).toFin (w.extractLsb' 0 9)) ∧
    (w.extractLsb' 12 4 = 0xC#4 → w.extractLsb' 6 3 ≠ 7#3 → decode w = .jmp (w.extractLsb' 6 3).toFin) ∧
    (w.extractLsb' 12 4 = 0xC#4 → w.extractLsb' 6 3 = 7#3 → decode w = .ret) ∧
    (w.extractLsb' 12 4 = 0xD#4 → decode w = .res) ∧
    (w.extractLsb' 12 4 = 0xE#4 → decode w = .lea (w.extractLsb' 9 3).toFin (w.extractLsb' 0 9)) ∧
    (w.extractLsb' 12 4 = 0xF#4 →
      (w.extractLsb' 0 8 = 0x20#8 → decode w = .getc) ∧ (w.extractLsb' 0 8 = 0x21#8 → decode w = .out) ∧
      (w.extractLsb' 0 8 = 0x22#8 → decode w = .puts) ∧ (w.extractLsb' 0 8 = 0x23#8 → decode w = .inp) ∧
      (w.extractLsb' 0 8 = 0x24#8 → decode w = .putsp) ∧ (w.extractLsb' 0 8 = 0x25#8 → decode w = .halt) ∧
      ((w.extractLsb' 0 8 < 0x20#8 ∨ 0x25#8 < w.extractLsb' 0 8) → decode w = .trap (w.extractLsb' 0 8)))

/-! ### The instruction cycle -/

/-- A step runs the decoded instruction, with `pc` one past it (30_encoding.md section 1): at every address but 0xFFFF, from the word
the gated fetch gives and the state it leaves; at every address but 0xFE00 as well, that is the cell, and nothing but `pc` changed.
That the fetch is gated is the spec's decision D5 (log entry 8), that 0xFFFF is not fetched D6 (log entry 6). -/
def Obligations.StepRunsTheDecodedInstruction : Prop :=
  ∀ (s : State) (i : Instr), s.run = .running → s.pc ≠ 0xFFFF#16 →
    (decode (s.memRead s.pc).1 = i → step s = exec i ((s.memRead s.pc).2.setPc (s.pc + 1#16))) ∧
    (s.pc ≠ 0xFE00#16 → decode (s.cell s.pc) = i → step s = exec i (s.setPc (s.pc + 1#16)))

/-- A fetch from 0xFE00 polls the keyboard: with no byte queued a branch that is never taken runs, with one queued an RTI
(20_memory.md section 2; rests on the spec's decision D5, log entry 8). -/
def Obligations.FetchAtKbsrPollsTheKeyboard : Prop :=
  ∀ s : State, s.run = .running → s.pc = 0xFE00#16 →
    (s.kbq = [] → step s = exec (.br false false false 0#9) ((s.setCell 0xFE00#16 0x0000#16).setPc 0xFE01#16)) ∧
    (∀ b q, s.kbq = b :: q →
      step s = exec .rti ((((s.setKbq q).setCell 0xFE00#16 0x8000#16).setCell 0xFE02#16 (b.setWidth 16)).setPc 0xFE01#16))

/-- The PC-overflow stop, for every message (60_exceptions.md section 1; rests on the spec's decision D6, log entry 6). -/
def Obligations.PcOverflowStopsWithoutFetching : Prop :=
  ∀ s : State, s.run = .running → s.pc = 0xFFFF#16 →
    ∃ t, step s = .next t ∧ StoppedWith .pcOverflow s t ∧ t.out = s.out ++ Config.pcOverflowMsg

/-- A stopped machine has no step (60_exceptions.md section 1). That the model answers its fault `stopped` is its own choice, log
entry 14. -/
def Obligations.StoppedMachineHasNoStep : Prop :=
  ∀ (s : State) (c : StopCause), s.run = .stopped c → step s = .fault (.stopped c)

/-- A blocked read with no byte queued holds (43_trap.md, channel primitives). That a hold is a step which changes nothing is the
model's choice, log entry 17. -/
def Obligations.BlockedReadHolds : Prop :=
  ∀ s : State, (s.run = .waitGetc ∨ s.run = .waitIn) → s.kbq = [] → step s = .next s

/-- A blocked GETC or IN, once the host appends bytes, any number of them but none, ends as if they had been there (43_trap.md, GETC;
rests on the spec's decision D13, log entry 17, and D19, log entry 21). -/
def Obligations.HeldReadEndsAsIfTheByteHadBeenThere : Prop :=
  ∀ (s : State) (bs : List Byte), s.run = .running → s.kbq = [] → bs ≠ [] →
    (∃ t, exec .getc s = .next t ∧ t = s.setRun .waitGetc ∧
      step (bs.foldl State.hostAppend t) = exec .getc (bs.foldl State.hostAppend s)) ∧
    (∃ t, exec .inp s = .next t ∧ t.run = .waitIn ∧ t.out = s.out ++ inPrompt ∧
      step (bs.foldl State.hostAppend t) = exec .inp (bs.foldl State.hostAppend s))

/-- What a step from a wait state does with a byte queued (43_trap.md, GETC and IN): it takes the head byte zero-extended into R0, IN
echoing it, and the machine runs again. The wait states are the spec's decision D13, log entry 17. -/
def Obligations.BlockedReadEndsWithTheHeadByte : Prop :=
  ∀ (s : State) (b : Byte) (q : List Byte), s.kbq = b :: q →
    (s.run = .waitGetc → ∃ t, step s = .next t ∧ t.getX 0 = b.setWidth 16 ∧ (∀ r, r ≠ 0 → t.getX r = s.getX r) ∧
      t.cond = s.cond ∧ t.pc = s.pc ∧ t.mem = s.mem ∧ t.kbq = q ∧ t.out = s.out ∧ t.run = .running) ∧
    (s.run = .waitIn → ∃ t, step s = .next t ∧ t.getX 0 = b.setWidth 16 ∧ (∀ r, r ≠ 0 → t.getX r = s.getX r) ∧
      t.cond = s.cond ∧ t.pc = s.pc ∧ t.mem = s.mem ∧ t.kbq = q ∧ t.out = s.out ++ [b] ∧ t.run = .running)

/-! ### Primitives -/

/-- Sign extension of the four immediate widths (00_scope.md rule R3). -/
def Obligations.SignExtensionFollowsTheRule : Prop :=
  (∀ v : BitVec 5, sext v = if v.getLsbD 4 then v.setWidth 16 ||| (0xFFFF#16 <<< 5) else v.setWidth 16) ∧
  (∀ v : BitVec 6, sext v = if v.getLsbD 5 then v.setWidth 16 ||| (0xFFFF#16 <<< 6) else v.setWidth 16) ∧
  (∀ v : BitVec 9, sext v = if v.getLsbD 8 then v.setWidth 16 ||| (0xFFFF#16 <<< 9) else v.setWidth 16) ∧
  (∀ v : BitVec 11, sext v = if v.getLsbD 10 then v.setWidth 16 ||| (0xFFFF#16 <<< 11) else v.setWidth 16)

/-- `setcc` (00_scope.md rule R5): the flag of the register's value, exactly one of the three, and nothing else changes. -/
def Obligations.SetccSetsExactlyOneFlag : Prop :=
  ∀ (s : State) (i : Reg),
    FlagsFrom (s.getX i) (s.setcc i).cond ∧
    ((s.setcc i).cond = 0x0001#16 ∨ (s.setcc i).cond = 0x0002#16 ∨ (s.setcc i).cond = 0x0004#16) ∧
    s.setcc i = s.setCond (s.setcc i).cond

/-- The register file by index (10_state.md section 4): a read after a write, for the ten indices. Which of 8 and 9 is the PC is the
spec's decision D4, log entry 5. -/
def Obligations.RegisterFileReadsWhatWasWritten : Prop :=
  ∀ (s : State) (i j : Fin 10) (v : Word),
    (s.writeFile i v).readFile j = (if j = i then v else s.readFile j) ∧
    s.readFile 8 = s.pc ∧ s.readFile 9 = s.cond ∧ (∀ r : Reg, s.readFile (r.castLE (by omega)) = s.getX r) ∧
    (s.writeFile i v).mem = s.mem ∧ (s.writeFile i v).run = s.run ∧
    (s.writeFile i v).kbq = s.kbq ∧ (s.writeFile i v).out = s.out

/-- The gated read (20_memory.md rules R31, R33): its word, the memory and queue it leaves, and that it touches nothing else. -/
def Obligations.GatedReadPollsOnlyKbsr : Prop :=
  ∀ (s : State) (a : Word),
    GatedReadGives s a (s.memRead a).1 (s.memRead a).2 ∧
    RegistersKept s (s.memRead a).2 ∧ (s.memRead a).2.pc = s.pc ∧
    (s.memRead a).2.run = s.run ∧ (s.memRead a).2.out = s.out

/-- A read of KBDR returns the cell, has no side effect and may be repeated (20_memory.md rule R34). -/
def Obligations.KbdrReadHasNoSideEffect : Prop :=
  ∀ s : State, s.memRead 0xFE02#16 = (s.cell 0xFE02#16, s) ∧
    (s.memRead 0xFE02#16).2.memRead 0xFE02#16 = s.memRead 0xFE02#16

/-- The store (20_memory.md rule R37): the whole word at any address, no side effect; a later read of another address than KBSR, KBDR
among them, gives it back, and a store to KBSR is never seen: a read of it gives and leaves what it would have without the store. -/
def Obligations.StoreReplacesOneWordAndNothingElse : Prop :=
  ∀ (s : State) (a v : Word),
    StoredAt a v s (s.memWrite a v) ∧ RegistersKept s (s.memWrite a v) ∧ (s.memWrite a v).pc = s.pc ∧
    (s.memWrite a v).run = s.run ∧ (s.memWrite a v).kbq = s.kbq ∧ (s.memWrite a v).out = s.out ∧
    (a ≠ 0xFE00#16 → ((s.memWrite a v).memRead a).1 = v) ∧
    ((s.memWrite 0xFE00#16 v).memRead 0xFE00#16).1 = (s.memRead 0xFE00#16).1 ∧
    ((s.memWrite 0xFE00#16 v).memRead 0xFE00#16).2.kbq = (s.memRead 0xFE00#16).2.kbq ∧
    ∀ k, ((s.memWrite 0xFE00#16 v).memRead 0xFE00#16).2.mem.readByte k = (s.memRead 0xFE00#16).2.mem.readByte k

/-! ### Arithmetic and logic -/

/-- ADD, both forms (40_alu.md rules R70, R71). -/
def Obligations.AddWritesTheSumAndItsFlags : Prop :=
  ∀ (s : State) (dr sr1 sr2 : Reg) (imm : BitVec 5),
    (∃ t, exec (.addReg dr sr1 sr2) s = .next t ∧ DestGets dr (s.getX sr1 + s.getX sr2) s t ∧ MemoryAndQueueKept s t) ∧
    (∃ t, exec (.addImm dr sr1 imm) s = .next t ∧ DestGets dr (s.getX sr1 + sext imm) s t ∧ MemoryAndQueueKept s t)

/-- AND, both forms (40_alu.md rules R72, R73). -/
def Obligations.AndWritesTheConjunctionAndItsFlags : Prop :=
  ∀ (s : State) (dr sr1 sr2 : Reg) (imm : BitVec 5),
    (∃ t, exec (.andReg dr sr1 sr2) s = .next t ∧ DestGets dr (s.getX sr1 &&& s.getX sr2) s t ∧ MemoryAndQueueKept s t) ∧
    (∃ t, exec (.andImm dr sr1 imm) s = .next t ∧ DestGets dr (s.getX sr1 &&& sext imm) s t ∧ MemoryAndQueueKept s t)

/-- NOT (40_alu.md rule R74); its N is set exactly when bit 15 of the source was 0. -/
def Obligations.NotInvertsEveryBit : Prop :=
  ∀ (s : State) (dr sr : Reg),
    ∃ t, exec (.not dr sr) s = .next t ∧ DestGets dr (~~~(s.getX sr)) s t ∧ MemoryAndQueueKept s t ∧
      (t.cond = 0x0004#16 ↔ (s.getX sr).getLsbD 15 = false)

/-- NOT then ADD #1 negates: two instructions leave `65536 - a` modulo 2^16 and its flags (40_alu.md, arithmetic laws). -/
def Obligations.NotThenAddOneNegates : Prop :=
  ∀ (s : State) (dr sr : Reg),
    ∃ t u, exec (.not dr sr) s = .next t ∧ exec (.addImm dr dr 1#5) t = .next u ∧
      (u.getX dr).toNat = (65536 - (s.getX sr).toNat) % 65536 ∧ FlagsFrom (0#16 - s.getX sr) u.cond ∧
      (∀ r, r ≠ dr → u.getX r = s.getX r)

/-! ### Loads and stores -/

/-- LD and LDR (41_load_store.md rules R80, R82): a gated read of the effective address into DR. -/
def Obligations.LoadsReadThroughTheGate : Prop :=
  ∀ (s : State) (dr baseR : Reg) (off9 : BitVec 9) (off6 : BitVec 6),
    (∃ w t, exec (.ld dr off9) s = .next t ∧ GatedReadGives s (s.pc + sext off9) w t ∧ DestGets dr w s t) ∧
    (∃ w t, exec (.ldr dr baseR off6) s = .next t ∧ GatedReadGives s (s.getX baseR + sext off6) w t ∧ DestGets dr w s t)

/-- LDI (41_load_store.md rule R81): the pointer read, then the data read from the memory it left. -/
def Obligations.LdiReadsThePointerThenTheData : Prop :=
  ∀ (s : State) (dr : Reg) (off : BitVec 9),
    ∃ p w m t, exec (.ldi dr off) s = .next t ∧ GatedReadGives s (s.pc + sext off) p m ∧ GatedReadGives m p w t ∧
      DestGets dr w s t ∧ ¬ (s.pc + sext off = 0xFE00#16 ∧ p = 0xFE00#16)

/-- LEA (41_load_store.md rule R83): the address, its flags, and no memory access. -/
def Obligations.LeaWritesTheAddressAndItsFlags : Prop :=
  ∀ (s : State) (dr : Reg) (off : BitVec 9),
    ∃ t, exec (.lea dr off) s = .next t ∧ DestGets dr (s.pc + sext off) s t ∧ MemoryAndQueueKept s t

/-- ST and STR (41_load_store.md rules R84, R86). -/
def Obligations.StoresWriteOneWordOfMemory : Prop :=
  ∀ (s : State) (sr baseR : Reg) (off9 : BitVec 9) (off6 : BitVec 6),
    (∃ t, exec (.st sr off9) s = .next t ∧ StoredAt (s.pc + sext off9) (s.getX sr) s t ∧ RegistersKept s t ∧
      t.pc = s.pc ∧ t.kbq = s.kbq ∧ t.out = s.out ∧ t.run = s.run) ∧
    (∃ t, exec (.str sr baseR off6) s = .next t ∧ StoredAt (s.getX baseR + sext off6) (s.getX sr) s t ∧ RegistersKept s t ∧
      t.pc = s.pc ∧ t.kbq = s.kbq ∧ t.out = s.out ∧ t.run = s.run)

/-- STI (41_load_store.md rule R85): a gated read of the pointer, then the store through it. -/
def Obligations.StiStoresThroughThePointer : Prop :=
  ∀ (s : State) (sr : Reg) (off : BitVec 9),
    ∃ p m t, exec (.sti sr off) s = .next t ∧ GatedReadGives s (s.pc + sext off) p m ∧ StoredAt p (s.getX sr) m t ∧
      RegistersKept s t ∧ t.pc = s.pc ∧ t.kbq = m.kbq ∧ t.out = s.out ∧ t.run = s.run

/-- A store, ST, STI or STR, followed by a load, LD, LDI or LDR, of the same address returns the stored value, unless the address is
KBSR (41_load_store.md, end). The load stands at any `pc`. -/
def Obligations.StoreThenLoadReturnsTheValue : Prop :=
  ∀ (s : State) (i j : Instr) (sr dr : Reg) (a : Word), IsStoreOf i sr → IsLoadInto j dr →
    storeAddr i s = some a → a ≠ 0xFE00#16 →
    ∃ t, exec i s = .next t ∧ ∀ p, loadAddr j (t.setPc p) = some a →
      ∃ u, exec j (t.setPc p) = .next u ∧ u.getX dr = s.getX sr

/-- A store, by ST, STI or STR, to the next instruction's address is what the next step runs (20_memory.md section 7, fetch coherence),
at every address but 0xFFFF, which is not fetched (D6, log entry 6), and KBSR, whose fetch polls (D5, log entry 8). -/
def Obligations.StoreIsSeenByTheNextFetch : Prop :=
  ∀ (s : State) (i : Instr) (sr : Reg), s.run = .running → s.pc ≠ 0xFFFF#16 → s.pc ≠ 0xFE00#16 →
    IsStoreOf i sr → storeAddr i s = some s.pc →
    ∃ t, exec i s = .next t ∧ step t = exec (decode (s.getX sr)) (t.setPc (s.pc + 1#16))

/-! ### Control transfer -/

/-- BR (42_control.md rule R90). -/
def Obligations.BranchIsTakenOnASelectedFlag : Prop :=
  ∀ (s : State) (n z p : Bool) (off : BitVec 9),
    ∃ t, exec (.br n z p off) s = .next t ∧ RegistersKept s t ∧ MemoryAndQueueKept s t ∧ t.out = s.out ∧ t.run = s.run ∧
      (((n = true ∧ s.cond.getLsbD 2 = true) ∨ (z = true ∧ s.cond.getLsbD 1 = true) ∨
        (p = true ∧ s.cond.getLsbD 0 = true)) → t.pc = s.pc + sext off) ∧
      (¬ ((n = true ∧ s.cond.getLsbD 2 = true) ∨ (z = true ∧ s.cond.getLsbD 1 = true) ∨
        (p = true ∧ s.cond.getLsbD 0 = true)) → t.pc = s.pc)

/-- JMP and RET (42_control.md rules R91, R92: `PC := R[BaseR]`, "RET is the special case BaseR=7"); a JMP spelled with BaseR = 7 does
what RET does. -/
def Obligations.JumpsGoToTheRegister : Prop :=
  ∀ (s : State) (baseR : Reg),
    (∃ t, exec (.jmp baseR) s = .next t ∧ t.pc = s.getX baseR ∧ RegistersKept s t ∧ MemoryAndQueueKept s t ∧
      t.out = s.out ∧ t.run = s.run) ∧
    (∃ t, exec .ret s = .next t ∧ t.pc = s.getX 7 ∧ RegistersKept s t ∧ MemoryAndQueueKept s t ∧
      t.out = s.out ∧ t.run = s.run)

/-- JSR (42_control.md rule R93). -/
def Obligations.JsrLinksAndJumpsRelative : Prop :=
  ∀ (s : State) (off : BitVec 11),
    ∃ t, exec (.jsr off) s = .next t ∧ t.getX 7 = s.pc ∧ t.pc = s.pc + sext off ∧ (∀ r, r ≠ 7 → t.getX r = s.getX r) ∧
      t.cond = s.cond ∧ MemoryAndQueueKept s t ∧ t.out = s.out ∧ t.run = s.run

/-- JSRR (42_control.md, JSRR): R7 is written first; with BaseR = 7 the target is the new R7, the spec's decision D8, log entry
11. -/
def Obligations.JsrrLinksThenReadsItsTarget : Prop :=
  ∀ (s : State) (baseR : Reg),
    ∃ t, exec (.jsrr baseR) s = .next t ∧ t.getX 7 = s.pc ∧ (baseR ≠ 7 → t.pc = s.getX baseR) ∧
      (baseR = 7 → t.pc = s.pc) ∧ (∀ r, r ≠ 7 → t.getX r = s.getX r) ∧
      t.cond = s.cond ∧ MemoryAndQueueKept s t ∧ t.out = s.out ∧ t.run = s.run

/-! ### TRAP and its routines -/

/-- The dispatch of TRAP on its vector (43_trap.md, dispatch). That a vector outside 0x20..0x25 changes nothing is the spec's decision
D10, log entry 9. -/
def Obligations.TrapDispatchesOnItsVector : Prop :=
  ∀ s : State,
    exec (.trap 0x20#8) s = exec .getc s ∧ exec (.trap 0x21#8) s = exec .out s ∧ exec (.trap 0x22#8) s = exec .puts s ∧
    exec (.trap 0x23#8) s = exec .inp s ∧ exec (.trap 0x24#8) s = exec .putsp s ∧ exec (.trap 0x25#8) s = exec .halt s ∧
    ∀ v : BitVec 8, (v < 0x20#8 ∨ 0x25#8 < v) → exec (.trap v) s = .next s

/-- GETC (43_trap.md, GETC): with a byte queued it goes zero-extended into R0 and the routine ends; with none the core waits (the wait
state is the spec's decision D13, log entry 17). -/
def Obligations.GetcTakesOneByteOrWaits : Prop :=
  ∀ s : State,
    (∀ b q, s.kbq = b :: q → ∃ t, exec .getc s = .next t ∧ t.getX 0 = b.setWidth 16 ∧ (∀ r, r ≠ 0 → t.getX r = s.getX r) ∧
      t.cond = s.cond ∧ t.pc = s.pc ∧ t.mem = s.mem ∧ t.kbq = q ∧ t.out = s.out ∧ t.run = .running) ∧
    (s.kbq = [] → ∃ t, exec .getc s = .next t ∧ t.run = .waitGetc ∧ RegistersKept s t ∧ t.pc = s.pc ∧
      MemoryAndQueueKept s t ∧ t.out = s.out)

/-- OUT (43_trap.md rule R102). -/
def Obligations.OutWritesTheLowByteOfR0 : Prop :=
  ∀ s : State, ∃ t, exec .out s = .next t ∧ t.out = s.out ++ [(s.getX 0).setWidth 8] ∧ RegistersKept s t ∧ t.pc = s.pc ∧
    MemoryAndQueueKept s t ∧ t.run = s.run

/-- IN (43_trap.md, IN): the prompt, then the byte, its echo and R0, or the wait after the prompt (wait: D13, log entry 17; the bytes of
the prompt: D20, log entry 19). -/
def Obligations.InPromptsThenTakesAndEchoesOneByte : Prop :=
  ∀ s : State,
    (∀ b q, s.kbq = b :: q → ∃ t, exec .inp s = .next t ∧
      t.out = s.out ++ [0x45#8, 0x6E#8, 0x74#8, 0x65#8, 0x72#8, 0x20#8, 0x61#8, 0x20#8, 0x63#8, 0x68#8, 0x61#8, 0x72#8,
        0x61#8, 0x63#8, 0x74#8, 0x65#8, 0x72#8, 0x3A#8, 0x20#8] ++ [b] ∧
      t.getX 0 = b.setWidth 16 ∧ (∀ r, r ≠ 0 → t.getX r = s.getX r) ∧
      t.cond = s.cond ∧ t.pc = s.pc ∧ t.mem = s.mem ∧ t.kbq = q ∧ t.run = .running) ∧
    (s.kbq = [] → ∃ t, exec .inp s = .next t ∧ t.run = .waitIn ∧
      t.out = s.out ++ [0x45#8, 0x6E#8, 0x74#8, 0x65#8, 0x72#8, 0x20#8, 0x61#8, 0x20#8, 0x63#8, 0x68#8, 0x61#8, 0x72#8,
        0x61#8, 0x63#8, 0x74#8, 0x65#8, 0x72#8, 0x3A#8, 0x20#8] ∧
      RegistersKept s t ∧ t.pc = s.pc ∧ MemoryAndQueueKept s t)

/-- PUTS and PUTSP end from every state, and change only `out` and, where a read polls, the queue and the keyboard registers
(43_trap.md, PUTS and PUTSP). That they end is the spec's own derivation, from its decisions that string reads are gated (D5, log
entry 8), that a string's address wraps (D16, log entry 15) and that no byte arrives inside a step (D19, log entries 15 and 21). -/
def Obligations.StringRoutinesEndAndKeepTheRest : Prop :=
  ∀ s : State,
    (∃ t, exec .puts s = .next t ∧ StringRoutineFrame s t) ∧ (∃ t, exec .putsp s = .next t ∧ StringRoutineFrame s t)

/-- The string routines are the loop the spec writes: the model's bound on the reads cuts no string short (43_trap.md, PUTS and
PUTSP). That the reads are gated, `memRead`, is the spec's decision D5, log entry 8; that the address wraps is D16, log entry 15.
`writeString bytes a` is the routine from the address `a`. -/
def Obligations.StringRoutineIsTheSpecsLoop : Prop :=
  (∀ s : State, exec .puts s = .next (s.writeString (fun w => [w.setWidth 8]) (s.getX 0)) ∧
    exec .putsp s = .next (s.writeString
      (fun w => if w.extractLsb' 8 8 = 0#8 then [w.setWidth 8] else [w.setWidth 8, w.extractLsb' 8 8]) (s.getX 0))) ∧
  ∀ (bytes : Word → List Byte) (s : State) (a : Word),
    ((s.memRead a).1 = 0x0000#16 → s.writeString bytes a = (s.memRead a).2) ∧
    ((s.memRead a).1 ≠ 0x0000#16 →
      s.writeString bytes a = ((s.memRead a).2.outBytes (bytes (s.memRead a).1)).writeString bytes (a + 1#16))

/-- PUTS of a string that does not touch KBSR writes the low byte of each of its words, and nothing else changes (43_trap.md,
PUTS). -/
def Obligations.PutsWritesEachLowByte : Prop :=
  ∀ (s : State) (ws : List Word), (∀ w ∈ ws, w ≠ 0x0000#16) →
    (∀ j (h : j < ws.length), s.cell (s.getX 0 + BitVec.ofNat 16 j) = ws[j]) →
    s.cell (s.getX 0 + BitVec.ofNat 16 ws.length) = 0x0000#16 →
    (∀ j, j ≤ ws.length → s.getX 0 + BitVec.ofNat 16 j ≠ 0xFE00#16) →
    exec .puts s = .next (s.outBytes (ws.map fun w => w.setWidth 8))

/-- HALT (43_trap.md, HALT): `HALT` and a line feed, then the stop. The byte values are ASCII, the spec's decision D20, log entry
19. -/
def Obligations.HaltWritesItsMessageAndStops : Prop :=
  ∀ s : State, ∃ t, exec .halt s = .next t ∧ StoppedWith .halt s t ∧
    t.out = s.out ++ [0x48#8, 0x41#8, 0x4C#8, 0x54#8, 0x0A#8]

/-- No trap, whatever its vector, writes `cond`, `pc` or any register but R0, and R0 only in GETC and IN; none stores to memory: a
byte outside the two keyboard registers never changes, and none changes at all in a routine that reads no string (43_trap.md,
dispatch; points (b) to (e) are the spec's decision D9, log entry 13). -/
def Obligations.TrapsKeepFlagsPcAndLink : Prop :=
  ∀ (s t : State) (i : Instr), i = .getc ∨ i = .out ∨ i = .puts ∨ i = .inp ∨ i = .putsp ∨ i = .halt ∨ (∃ v, i = .trap v) →
    exec i s = .next t →
    t.cond = s.cond ∧ t.pc = s.pc ∧ (∀ r, r ≠ 0 → t.getX r = s.getX r) ∧
    (i ≠ .getc → i ≠ .inp → i ≠ .trap 0x20#8 → i ≠ .trap 0x23#8 → t.getX 0 = s.getX 0) ∧
    (∀ k, outside k 0xFE00#16 → outside k 0xFE02#16 → t.mem.readByte k = s.mem.readByte k) ∧
    (i ≠ .puts → i ≠ .putsp → i ≠ .trap 0x22#8 → i ≠ .trap 0x24#8 → t.mem = s.mem)

/-! ### Undefined opcodes -/

/-- RTI and RES stop the machine and change nothing else (44_illegal.md); that nothing is written to `out` is the spec's decision D14,
log entry 18. -/
def Obligations.RtiAndResStopTheMachine : Prop :=
  ∀ s : State,
    (∃ t, exec .rti s = .next t ∧ StoppedWith .illegalRti s t ∧ t.out = s.out) ∧
    (∃ t, exec .res s = .next t ∧ StoppedWith .illegalRes s t ∧ t.out = s.out)

/-! ### The whole machine -/

/-- Every instruction has an effect from every state: nothing faults and nothing is refused (60_exceptions.md section 1: there are no
other synchronous exceptions). That `exec` is defined from states that are not RUNNING is the model's DESIGN CHOICE, log entry 24;
that GETC and IN with no byte queued answer a wait state is D13, log entry 17; that an unknown trap vector is a no-op and not refused
is D10, log entry 9. -/
def Obligations.EveryInstructionCompletes : Prop :=
  ∀ (i : Instr) (s : State), ∃ t, exec i s = .next t

/-- Exactly seven instructions write `cond`, each from its destination register after the write; no other instruction and no other part
of a step does (00_scope.md section 5.3). In the clause about a step, that nothing is fetched at 0xFFFF is the spec's decision D6, log
entry 6, and that the instruction is the one the gated fetch reads is D5, log entry 8. -/
def Obligations.ExactlySevenInstructionsSetTheFlags : Prop :=
  (∀ (i : Instr) (s t : State), exec i s = .next t →
    (∀ dr, flagDest i = some dr → FlagsFrom (t.getX dr) t.cond) ∧ (flagDest i = none → t.cond = s.cond)) ∧
  (∀ s t : State, step s = .next t → t.cond ≠ s.cond →
    s.run = .running ∧ s.pc ≠ 0xFFFF#16 ∧ flagDest (decode (s.memRead s.pc).1) ≠ none)

/-- A general register changes only where the table of 10_state.md section 1 says it is written; the link register is no exception to
it. The log entry for traps is 13. -/
def Obligations.OnlyTheWrittenRegisterChanges : Prop :=
  ∀ (i : Instr) (s t : State), exec i s = .next t → ∀ r, writtenReg i ≠ some r → t.getX r = s.getX r

/-- Every instruction but BR, JMP, RET, JSR and JSRR leaves `pc` one past its own address (10_state.md section 2). That traps do is the
spec's decision D9, log entry 13; that the word is the one the gated fetch reads D5, log entry 8; that none is fetched at 0xFFFF D6,
log entry 6. -/
def Obligations.OnlyControlTransfersChangePc : Prop :=
  (∀ (i : Instr) (s t : State), exec i s = .next t → writesPc i = false → t.pc = s.pc) ∧
  (∀ s t : State, s.run = .running → s.pc ≠ 0xFFFF#16 → step s = .next t →
    writesPc (decode (s.memRead s.pc).1) = false → t.pc = s.pc + 1#16)

/-- A byte of memory changes only where ST, STI or STR stores, in KBSR, or, when a queued byte is taken, in KBDR (20_memory.md sections
2 and 3). -/
def Obligations.OnlyStoresAndPollsChangeMemory : Prop :=
  ∀ (i : Instr) (s t : State), exec i s = .next t → ∀ k,
    (∀ a, storeAddr i s = some a → outside k a) → outside k 0xFE00#16 → (outside k 0xFE02#16 ∨ t.kbq = s.kbq) →
    t.mem.readByte k = s.mem.readByte k

/-- The polled byte stays in KBDR until another poll takes a byte or a store to it: a step that takes no byte and stores elsewhere
leaves KBDR as it was (20_memory.md section 2, the visibility promise). That the instruction is the one the gated fetch reads is the
spec's decision D5, log entry 8. -/
def Obligations.PolledByteStaysInKbdr : Prop :=
  (∀ (s : State) (b : Byte) (q : List Byte), s.kbq = b :: q →
    (s.memRead 0xFE00#16).1 = 0x8000#16 ∧ ((s.memRead 0xFE00#16).2.memRead 0xFE02#16).1 = b.setWidth 16) ∧
  (∀ s t : State, step s = .next t → t.kbq = s.kbq →
    (s.run = .running → s.pc ≠ 0xFFFF#16 →
      storeAddr (decode s.fetch.1) s.fetch.2 ≠ some 0xFE02#16) → t.cell 0xFE02#16 = s.cell 0xFE02#16)

/-- `out` only grows at its end and the core takes bytes only from the head of `kbq` (10_state.md section 10; queue and stream are the
spec's decisions D11 and D12, log entries 16 and 12). -/
def Obligations.ChannelsAreStreams : Prop :=
  ∀ s t : State, step s = .next t → s.out <+: t.out ∧ t.kbq <:+ s.kbq

/-- The four stop causes: from RUNNING a step stops for each cause exactly when 60_exceptions.md section 1 says so. That a word at 0xFFFF
gives no stop of its own is the spec's decision D6, log entry 6; that the word is the one the gated fetch reads, an RTI at 0xFE00
among them, is D5, log entry 8; the names of the causes are D14, log entry 25. -/
def Obligations.EachStopHasItsCause : Prop :=
  ∀ s t : State, s.run = .running → step s = .next t →
    (t.run = .stopped .pcOverflow ↔ s.pc = 0xFFFF#16) ∧
    (t.run = .stopped .illegalRti ↔ s.pc ≠ 0xFFFF#16 ∧ (s.memRead s.pc).1.extractLsb' 12 4 = 0x8#4) ∧
    (t.run = .stopped .illegalRes ↔ s.pc ≠ 0xFFFF#16 ∧ (s.memRead s.pc).1.extractLsb' 12 4 = 0xD#4) ∧
    (t.run = .stopped .halt ↔ s.pc ≠ 0xFFFF#16 ∧ (s.memRead s.pc).1.extractLsb' 12 4 = 0xF#4 ∧
      (s.memRead s.pc).1.extractLsb' 0 8 = 0x25#8)

/-- A stop is precise: the step that stops leaves registers and flags, and, but for the gate of its own fetch, memory and queue, and its
`pc` is its own address plus one, or 0xFFFF (60_exceptions.md section 4). The gated fetch is the spec's decision D5, log entry 8, and
that 0xFFFF is not fetched D6, log entry 6. -/
def Obligations.StopsArePrecise : Prop :=
  ∀ (s t : State) (c : StopCause), s.run = .running → step s = .next t → t.run = .stopped c →
    RegistersKept s t ∧
    (c = .pcOverflow → t.pc = 0xFFFF#16 ∧ MemoryAndQueueKept s t) ∧
    (c ≠ .pcOverflow → t.pc = s.pc + 1#16 ∧ t.mem = (s.memRead s.pc).2.mem ∧ t.kbq = (s.memRead s.pc).2.kbq)

/-! ### Invariants -/

/-- Every step keeps the invariant, from every state that has it: canonical memory, legal flags, what a wait and a stop leave in `out`
and `pc` (Safety.lean, `State.Inv`). The bytes of memory are log entry 1, `cond` = 0 at reset is D2, log entry 2, and `pc` at a PC
overflow is D6, log entry 6. -/
def Obligations.StepKeepsTheInvariant : Prop :=
  ∀ s t : State, s.Inv → step s = .next t → t.Inv

/-- The reset state has the invariant. Its register and flag values and its start address are the spec's decisions D2 and D3, log
entries 2 and 3. -/
def Obligations.ResetHasTheInvariant : Prop := State.reset.Inv

/-- Every state of every run has the invariant, whatever images were loaded and whenever bytes arrive. What a run is, which images load
and what the host may do, is D18 and D19, log entries 20 and 21. -/
def Obligations.ReachableStatesHaveTheInvariant : Prop := ∀ s : State, Reachable s → s.Inv

/-- Once a flag is set, one is set forever (10_state.md section 12): from {1, 2, 4} a step stays in {1, 2, 4}. -/
def Obligations.FlagsOnceSetStaySet : Prop :=
  ∀ s t : State, (s.cond = 0x0001#16 ∨ s.cond = 0x0002#16 ∨ s.cond = 0x0004#16) → step s = .next t →
    (t.cond = 0x0001#16 ∨ t.cond = 0x0002#16 ∨ t.cond = 0x0004#16)

/-! ### The host's moves -/

/-- Reset (10_state.md section 11): every register, flag and memory cell is 0, `pc` is 0x3000, the machine runs, `out` is empty and
`kbq` is kept. Register and flag values are the spec's decision D2 (log entry 2), the start address D3 (log entry 3), the kept queue
D11 (log entries 4 and 16), the empty `out` D12 (log entry 12). -/
def Obligations.ResetValues : Prop :=
  ∀ s : State, (∀ r, s.hostReset.getX r = 0x0000#16) ∧ s.hostReset.pc = 0x3000#16 ∧ s.hostReset.cond = 0x0000#16 ∧
    (∀ a, s.hostReset.cell a = 0x0000#16) ∧ s.hostReset.run = .running ∧ s.hostReset.kbq = s.kbq ∧ s.hostReset.out = []

/-- An image file of an origin and its words, each word's bits 15:8 before its bits 7:0, parses to them; loaded, it leaves exactly those
words at consecutive cells from the origin, and touches nothing else (70_reset_and_hazards.md section 2). An image that runs past
0xFFFF is shut out, since the spec leaves it open (D18, log entry 20). -/
def Obligations.LoadedImageStandsInMemory : Prop :=
  ∀ (s : State) (origin : Word) (ws : List Word), origin.toNat + ws.length ≤ 65536 →
    parseImage (origin.extractLsb' 8 8 :: origin.extractLsb' 0 8 ::
      ws.flatMap fun w => [w.extractLsb' 8 8, w.extractLsb' 0 8]) = some (origin, ws) ∧
    ∃ t, s.loadImage origin ws = some t ∧
      (∀ j (h : j < ws.length), t.cell (origin + BitVec.ofNat 16 j) = ws[j]) ∧
      (∀ a : Word, (∀ j, j < ws.length → a ≠ origin + BitVec.ofNat 16 j) → t.cell a = s.cell a) ∧
      RegistersKept s t ∧ t.pc = s.pc ∧ t.kbq = s.kbq ∧ t.out = s.out ∧ t.run = s.run

/-- Images are loaded in the order given, each over the earlier ones: a cell holds the word of the last image that covers it, and a
cell that none covers is as before (70_reset_and_hazards.md section 2). An image that runs past 0xFFFF is shut out (D18, log entry
20). -/
def Obligations.LaterImagesOverwriteEarlierOnes : Prop :=
  ∀ (s : State) (images : List (Word × List Word)), (∀ im ∈ images, im.1.toNat + im.2.length ≤ 65536) →
    ∃ t, s.loadImages images = some t ∧
      (∀ earlier origin ws later, images = earlier ++ (origin, ws) :: later →
        ∀ j (h : j < ws.length), (∀ im ∈ later, Uncovered im (origin + BitVec.ofNat 16 j)) →
          t.cell (origin + BitVec.ofNat 16 j) = ws[j]) ∧
      (∀ a, (∀ im ∈ images, Uncovered im a) → t.cell a = s.cell a) ∧
      RegistersKept s t ∧ t.pc = s.pc ∧ t.kbq = s.kbq ∧ t.out = s.out ∧ t.run = s.run
end

