-- ==== Sys2Proof/Laws/Decode.lean ====
section
/-! SUPPORT. Fields of a word from its bits, and the decoder from the opcode: what a proof about words cites instead of
unfolding `decode`. -/

namespace Sys2Proof.Laws

/-- A slice of a word is a field when its bits are the field's. -/
theorem slice_of_bits {w : Word} {lo n : Nat} {v : BitVec n} (h : ∀ j < n, w.getLsbD (lo + j) = v.getLsbD j) :
    w.extractLsb' lo n = v := by
  ext j hj
  simpa [BitVec.getElem_extractLsb', BitVec.getLsbD_eq_getElem hj] using h j hj

theorem opcode_of_bits {w : Word} {v : BitVec 4} (h : ∀ j < 4, w.getLsbD (12 + j) = v.getLsbD j) : opcode w = v :=
  slice_of_bits h

theorem regField_of_bits {w : Word} {lo : Nat} {r : Reg} (h : ∀ j < 3, w.getLsbD (lo + j) = (regBits r).getLsbD j) :
    regField w lo = r := by
  unfold regField
  rw [slice_of_bits h]
  rfl

theorem imm5Field_of_bits {w : Word} {v : BitVec 5} (h : ∀ j < 5, w.getLsbD (0 + j) = v.getLsbD j) : imm5Field w = v :=
  slice_of_bits h

theorem offset6Field_of_bits {w : Word} {v : BitVec 6} (h : ∀ j < 6, w.getLsbD (0 + j) = v.getLsbD j) :
    offset6Field w = v :=
  slice_of_bits h

theorem pcOffset9Field_of_bits {w : Word} {v : BitVec 9} (h : ∀ j < 9, w.getLsbD (0 + j) = v.getLsbD j) :
    pcOffset9Field w = v :=
  slice_of_bits h

theorem pcOffset11Field_of_bits {w : Word} {v : BitVec 11} (h : ∀ j < 11, w.getLsbD (0 + j) = v.getLsbD j) :
    pcOffset11Field w = v :=
  slice_of_bits h

theorem trapvect8Field_of_bits {w : Word} {v : BitVec 8} (h : ∀ j < 8, w.getLsbD (0 + j) = v.getLsbD j) :
    trapvect8Field w = v :=
  slice_of_bits h

/-! ### The bits of a field -/

theorem opcode_bit (w : Word) (j : Nat) : (opcode w).getLsbD j = (decide (j < 4) && w.getLsbD (12 + j)) := by
  simp [opcode, BitVec.getLsbD_extractLsb']

theorem regField_bit (w : Word) (lo j : Nat) :
    (regBits (regField w lo)).getLsbD j = (decide (j < 3) && w.getLsbD (lo + j)) := by
  have : regBits (regField w lo) = w.extractLsb' lo 3 := rfl
  rw [this, BitVec.getLsbD_extractLsb']

theorem imm5Field_bit (w : Word) (j : Nat) : (imm5Field w).getLsbD j = (decide (j < 5) && w.getLsbD j) := by
  simp [imm5Field, BitVec.getLsbD_extractLsb']

theorem offset6Field_bit (w : Word) (j : Nat) : (offset6Field w).getLsbD j = (decide (j < 6) && w.getLsbD j) := by
  simp [offset6Field, BitVec.getLsbD_extractLsb']

theorem pcOffset9Field_bit (w : Word) (j : Nat) : (pcOffset9Field w).getLsbD j = (decide (j < 9) && w.getLsbD j) := by
  simp [pcOffset9Field, BitVec.getLsbD_extractLsb']

theorem pcOffset11Field_bit (w : Word) (j : Nat) : (pcOffset11Field w).getLsbD j = (decide (j < 11) && w.getLsbD j) := by
  simp [pcOffset11Field, BitVec.getLsbD_extractLsb']

theorem trapvect8Field_bit (w : Word) (j : Nat) : (trapvect8Field w).getLsbD j = (decide (j < 8) && w.getLsbD j) := by
  simp [trapvect8Field, BitVec.getLsbD_extractLsb']

/-! ### The decoder by opcode -/

/-- A word's opcode is one of the sixteen (30_encoding.md rule R56). -/
theorem opcode_cases (w : Word) :
    opcode w = 0x0#4 ∨ opcode w = 0x1#4 ∨ opcode w = 0x2#4 ∨ opcode w = 0x3#4 ∨ opcode w = 0x4#4 ∨ opcode w = 0x5#4 ∨
    opcode w = 0x6#4 ∨ opcode w = 0x7#4 ∨ opcode w = 0x8#4 ∨ opcode w = 0x9#4 ∨ opcode w = 0xA#4 ∨ opcode w = 0xB#4 ∨
    opcode w = 0xC#4 ∨ opcode w = 0xD#4 ∨ opcode w = 0xE#4 ∨ opcode w = 0xF#4 := by
  generalize opcode w = v
  revert v
  decide

theorem decode_op_br {w : Word} (h : opcode w = 0x0#4) :
    decode w = .br (w.getLsbD 11) (w.getLsbD 10) (w.getLsbD 9) (pcOffset9Field w) := by
  simp only [decode, h]

theorem decode_op_add {w : Word} (h : opcode w = 0x1#4) :
    decode w = if w.getLsbD 5 then .addImm (regField w 9) (regField w 6) (imm5Field w)
      else .addReg (regField w 9) (regField w 6) (regField w 0) := by
  simp only [decode, h]

theorem decode_op_ld {w : Word} (h : opcode w = 0x2#4) :
    decode w = .ld (regField w 9) (pcOffset9Field w) := by
  simp only [decode, h]

theorem decode_op_st {w : Word} (h : opcode w = 0x3#4) :
    decode w = .st (regField w 9) (pcOffset9Field w) := by
  simp only [decode, h]

theorem decode_op_jsr {w : Word} (h : opcode w = 0x4#4) :
    decode w = decodeJsr w := by
  simp only [decode, h]

theorem decode_op_and {w : Word} (h : opcode w = 0x5#4) :
    decode w = if w.getLsbD 5 then .andImm (regField w 9) (regField w 6) (imm5Field w)
      else .andReg (regField w 9) (regField w 6) (regField w 0) := by
  simp only [decode, h]

theorem decode_op_ldr {w : Word} (h : opcode w = 0x6#4) :
    decode w = .ldr (regField w 9) (regField w 6) (offset6Field w) := by
  simp only [decode, h]

theorem decode_op_str {w : Word} (h : opcode w = 0x7#4) :
    decode w = .str (regField w 9) (regField w 6) (offset6Field w) := by
  simp only [decode, h]

theorem decode_op_rti {w : Word} (h : opcode w = 0x8#4) :
    decode w = .rti := by
  simp only [decode, h]

theorem decode_op_not {w : Word} (h : opcode w = 0x9#4) :
    decode w = .not (regField w 9) (regField w 6) := by
  simp only [decode, h]

theorem decode_op_ldi {w : Word} (h : opcode w = 0xA#4) :
    decode w = .ldi (regField w 9) (pcOffset9Field w) := by
  simp only [decode, h]

theorem decode_op_sti {w : Word} (h : opcode w = 0xB#4) :
    decode w = .sti (regField w 9) (pcOffset9Field w) := by
  simp only [decode, h]

theorem decode_op_jmp {w : Word} (h : opcode w = 0xC#4) :
    decode w = decodeJmp w := by
  simp only [decode, h]

theorem decode_op_res {w : Word} (h : opcode w = 0xD#4) :
    decode w = .res := by
  simp only [decode, h]

theorem decode_op_lea {w : Word} (h : opcode w = 0xE#4) :
    decode w = .lea (regField w 9) (pcOffset9Field w) := by
  simp only [decode, h]

theorem decode_op_trap {w : Word} (h : opcode w = 0xF#4) :
    decode w = decodeTrap w := by
  simp [decode, h]

end Sys2Proof.Laws
end

