-- ==== Sys2Proof/Laws/Memory.lean ====
section
/-! SUPPORT. The memory array: a read after a write, everywhere; that every write keeps the canonical form; and that
canonical memories which read the same are the same list. The read laws need no hypothesis on the memory. -/

namespace Sys2Proof.Machine

/-! ### Bytes -/

theorem Memory.readByte_of_not_listed {m : Memory} {k : Nat} (h : ∀ c ∈ m, c.1 ≠ k) : m.readByte k = Memory.unlisted := by
  induction m with
  | nil => rfl
  | cons c m ih =>
    obtain ⟨key, b⟩ := c
    have hc : key ≠ k := h (key, b) (by simp)
    simp only [Memory.readByte, hc, if_false]
    exact ih fun d hd => h d (by simp [hd])

theorem Memory.readByte_dropKey (m : Memory) (k j : Nat) :
    (Memory.dropKey m k).readByte j = if j = k then Memory.unlisted else m.readByte j := by
  induction m with
  | nil => simp [Memory.dropKey, Memory.readByte]
  | cons c m ih =>
    obtain ⟨key, b⟩ := c
    by_cases hk : key = k
    · subst hk
      have : Memory.dropKey ((key, b) :: m) key = Memory.dropKey m key := by simp [Memory.dropKey]
      rw [this, ih]
      by_cases hj : j = key
      · simp [hj]
      · simp [hj, Memory.readByte, Ne.symm hj]
    · have : Memory.dropKey ((key, b) :: m) k = (key, b) :: Memory.dropKey m k := by simp [Memory.dropKey, hk]
      rw [this]
      by_cases hj : key = j
      · subst hj
        simp [Memory.readByte, hk]
      · simp [Memory.readByte, hj, ih]

theorem Memory.readByte_insertByte {m : Memory} {k : Nat} (b : Byte) (j : Nat) (h : ∀ c ∈ m, c.1 ≠ k) :
    (Memory.insertByte k b m).readByte j = if j = k then b else m.readByte j := by
  induction m with
  | nil =>
    by_cases hj : j = k
    · simp [Memory.insertByte, Memory.readByte, hj]
    · simp [Memory.insertByte, Memory.readByte, hj, Ne.symm hj]
  | cons c m ih =>
    obtain ⟨key, d⟩ := c
    have hkey : key ≠ k := h (key, d) (by simp)
    by_cases hlt : k < key
    · simp only [Memory.insertByte, hlt, if_true, Memory.readByte]
      by_cases hj : j = k
      · simp [hj]
      · simp [hj, Ne.symm hj]
    · simp only [Memory.insertByte, hlt, if_false, Memory.readByte]
      rw [ih fun e he => h e (by simp [he])]
      by_cases hj : key = j
      · subst hj
        simp [hkey]
      · simp [hj]

theorem Memory.dropKey_not_listed (m : Memory) (k : Nat) : ∀ c ∈ Memory.dropKey m k, c.1 ≠ k := by
  intro c hc
  simpa [Memory.dropKey] using (List.mem_filter.mp hc).2

/-- A byte after a write: the value written at its key, and everywhere else the byte before. -/
theorem Memory.readByte_writeByte (m : Memory) (k : Nat) (b : Byte) (j : Nat) :
    (m.writeByte k b).readByte j = if j = k then b else m.readByte j := by
  unfold Memory.writeByte
  split
  · rename_i hb
    rw [Memory.readByte_dropKey, hb]
  · rw [Memory.readByte_insertByte b j (Memory.dropKey_not_listed m k), Memory.readByte_dropKey]
    split <;> rfl

/-! ### The canonical form -/

theorem Memory.wf_nil : Memory.wf [] := by simp [Memory.wf]

theorem Memory.wf_dropKey {m : Memory} (h : m.wf) (k : Nat) : (Memory.dropKey m k).wf :=
  ⟨h.1.filter _, fun c hc => h.2 c (List.mem_filter.mp hc).1⟩

theorem Memory.mem_insertByte {m : Memory} {k : Nat} {b : Byte} {c : Host.Cell} (h : c ∈ Memory.insertByte k b m) :
    c = (k, b) ∨ c ∈ m := by
  induction m with
  | nil => simpa [Memory.insertByte] using h
  | cons d m ih =>
    by_cases hlt : k < d.1
    · simpa [Memory.insertByte, hlt] using h
    · simp only [Memory.insertByte, hlt, if_false, List.mem_cons] at h
      rcases h with h | h
      · simp [h]
      · rcases ih h with h | h <;> simp [h]

theorem Memory.wf_insertByte {m : Memory} (hm : m.wf) {k : Nat} {b : Byte} (hk : k < Memory.size) (hb : b ≠ Memory.unlisted)
    (hnot : ∀ c ∈ m, c.1 ≠ k) : (Memory.insertByte k b m).wf := by
  refine ⟨?_, fun c hc => ?_⟩
  · have hp := hm.1
    clear hm
    induction m with
    | nil => simp [Memory.insertByte]
    | cons d m ih =>
      obtain ⟨hd, hp'⟩ := List.pairwise_cons.mp hp
      by_cases hlt : k < d.1
      · simp only [Memory.insertByte, hlt, if_true]
        refine List.pairwise_cons.mpr ⟨fun e he => ?_, hp⟩
        rcases List.mem_cons.mp he with rfl | he
        · exact hlt
        · exact Nat.lt_trans hlt (hd e he)
      · simp only [Memory.insertByte, hlt, if_false]
        refine List.pairwise_cons.mpr ⟨fun e he => ?_, ih (fun c hc => hnot c (by simp [hc])) hp'⟩
        rcases Memory.mem_insertByte he with rfl | he
        · have := hnot d (by simp)
          simp only
          omega
        · exact hd e he
  · rcases Memory.mem_insertByte hc with rfl | hc
    · exact ⟨hk, hb⟩
    · exact hm.2 c hc

/-- Writing a byte keeps the canonical form. -/
theorem Memory.wf_writeByte {m : Memory} (h : m.wf) {k : Nat} (hk : k < Memory.size) (b : Byte) : (m.writeByte k b).wf := by
  unfold Memory.writeByte
  split
  · exact Memory.wf_dropKey h k
  · rename_i hb
    exact Memory.wf_insertByte (Memory.wf_dropKey h k) hk hb (Memory.dropKey_not_listed m k)

theorem highKey_lt (a : Word) : highKey a < Memory.size := by
  have := a.isLt
  unfold highKey Memory.size
  omega

theorem lowKey_lt (a : Word) : lowKey a < Memory.size := by
  have := a.isLt
  unfold lowKey Memory.size
  omega

/-- Writing a cell keeps the canonical form. -/
theorem Memory.wf_writeWord {m : Memory} (h : m.wf) (a w : Word) : (m.writeWord a w).wf :=
  Memory.wf_writeByte (Memory.wf_writeByte h (highKey_lt a) _) (lowKey_lt a) _

/-! ### Cells -/

/-- A byte after a cell is written: the cell's two bytes are the word's, and every other byte is as before. -/
theorem Memory.readByte_writeWord (m : Memory) (a w : Word) (k : Nat) :
    (m.writeWord a w).readByte k =
      if k = lowKey a then lowByte w else if k = highKey a then highByte w else m.readByte k := by
  simp only [Memory.writeWord, Memory.readByte_writeByte]

theorem highByte_append_lowByte (w : Word) : highByte w ++ lowByte w = w := by
  ext i hi
  simp only [highByte, lowByte, BitVec.getElem_append, BitVec.getElem_extractLsb']
  split
  · simp [BitVec.getLsbD_eq_getElem hi]
  · have : 8 + (i - 8) = i := by omega
    simp [this, BitVec.getLsbD_eq_getElem hi]

/-- A cell after a cell is written. -/
theorem Memory.readWord_writeWord (m : Memory) (a w c : Word) :
    (m.writeWord a w).readWord c = if c = a then w else m.readWord c := by
  have hhl : highKey c ≠ lowKey a := by unfold highKey lowKey; omega
  have hlh : lowKey c ≠ highKey a := by unfold highKey lowKey; omega
  unfold Memory.readWord
  simp only [Memory.readByte_writeWord, hhl, hlh, if_false]
  by_cases h : c = a
  · subst h
    simp [highByte_append_lowByte]
  · have hn : c.toNat ≠ a.toNat := fun e => h (BitVec.eq_of_toNat_eq e)
    have h1 : highKey c ≠ highKey a := by unfold highKey; omega
    have h2 : lowKey c ≠ lowKey a := by unfold lowKey; omega
    simp [h, h1, h2]

/-! ### Equal memories are equal data -/

/-- Two canonical memories in which every key reads the same are the same list. -/
theorem Memory.eq_of_readByte {m n : Memory} (hm : m.wf) (hn : n.wf) (h : ∀ k, m.readByte k = n.readByte k) : m = n := by
  induction m generalizing n with
  | nil =>
    cases n with
    | nil => rfl
    | cons d n =>
      obtain ⟨key, b⟩ := d
      have := h key
      have hb := (hn.2 (key, b) (by simp)).2
      simp [Memory.readByte] at this
      exact absurd this.symm hb
  | cons c m ih =>
    obtain ⟨key, b⟩ := c
    obtain ⟨hlt, hmp⟩ := List.pairwise_cons.mp hm.1
    have hb := (hm.2 (key, b) (by simp)).2
    cases n with
    | nil =>
      have := h key
      simp [Memory.readByte] at this
      exact absurd this hb
    | cons d n =>
      obtain ⟨key', b'⟩ := d
      obtain ⟨hlt', hnp⟩ := List.pairwise_cons.mp hn.1
      have hb' := (hn.2 (key', b') (by simp)).2
      have habove : ∀ k, k ≤ key → Memory.readByte m k = Memory.unlisted := fun k hk =>
        Memory.readByte_of_not_listed fun e he => by have := hlt e he; simp only at this; omega
      have habove' : ∀ k, k ≤ key' → Memory.readByte n k = Memory.unlisted := fun k hk =>
        Memory.readByte_of_not_listed fun e he => by have := hlt' e he; simp only at this; omega
      have hkeys : key = key' := by
        rcases Nat.lt_trichotomy key key' with hk | hk | hk
        · have := h key
          simp only [Memory.readByte, if_true, if_neg (show ¬ key' = key by omega)] at this
          exact absurd (this.trans (habove' key (by omega))) hb
        · exact hk
        · have := h key'
          simp only [Memory.readByte, if_true, if_neg (show ¬ key = key' by omega)] at this
          exact absurd (this.symm.trans (habove key' (by omega))) hb'
      subst hkeys
      have hbb : b = b' := by simpa [Memory.readByte] using h key
      subst hbb
      have hrest : ∀ k, Memory.readByte m k = Memory.readByte n k := by
        intro k
        by_cases hk : key = k
        · subst hk
          rw [habove key (Nat.le_refl _), habove' key (Nat.le_refl _)]
        · simpa [Memory.readByte, hk] using h k
      rw [ih ⟨hmp, fun e he => hm.2 e (by simp [he])⟩ ⟨hnp, fun e he => hn.2 e (by simp [he])⟩ hrest]

end Sys2Proof.Machine
end

