-- ==== Sys2Proof/Laws/State.lean ====
section
/-! SUPPORT. For each update of one field, what every accessor reads after it, and when two states are equal. No later proof
unfolds a record update. -/

namespace Sys2Proof.Machine

/-! ### `setX` -/

@[simp] theorem State.setX_getX (s : State) (i j : Reg) (v : Word) :
    (s.setX i v).getX j = if i = j then v else s.getX j := by
  simp [State.setX, State.getX, Vector.getElem_set, Fin.ext_iff]
@[simp] theorem State.setX_pc (s : State) (i : Reg) (v : Word) : (s.setX i v).pc = s.pc := rfl
@[simp] theorem State.setX_cond (s : State) (i : Reg) (v : Word) : (s.setX i v).cond = s.cond := rfl
@[simp] theorem State.setX_mem (s : State) (i : Reg) (v : Word) : (s.setX i v).mem = s.mem := rfl
@[simp] theorem State.setX_run (s : State) (i : Reg) (v : Word) : (s.setX i v).run = s.run := rfl
@[simp] theorem State.setX_kbq (s : State) (i : Reg) (v : Word) : (s.setX i v).kbq = s.kbq := rfl
@[simp] theorem State.setX_out (s : State) (i : Reg) (v : Word) : (s.setX i v).out = s.out := rfl
@[simp] theorem State.setX_cell (s : State) (i : Reg) (v : Word) (c : Word) : (s.setX i v).cell c = s.cell c := rfl

/-! ### `setPc` -/

@[simp] theorem State.setPc_getX (s : State) (v : Word) (j : Reg) : (s.setPc v).getX j = s.getX j := rfl
@[simp] theorem State.setPc_x (s : State) (v : Word) : (s.setPc v).x = s.x := rfl
@[simp] theorem State.setPc_pc (s : State) (v : Word) : (s.setPc v).pc = v := rfl
@[simp] theorem State.setPc_cond (s : State) (v : Word) : (s.setPc v).cond = s.cond := rfl
@[simp] theorem State.setPc_mem (s : State) (v : Word) : (s.setPc v).mem = s.mem := rfl
@[simp] theorem State.setPc_run (s : State) (v : Word) : (s.setPc v).run = s.run := rfl
@[simp] theorem State.setPc_kbq (s : State) (v : Word) : (s.setPc v).kbq = s.kbq := rfl
@[simp] theorem State.setPc_out (s : State) (v : Word) : (s.setPc v).out = s.out := rfl
@[simp] theorem State.setPc_cell (s : State) (v : Word) (c : Word) : (s.setPc v).cell c = s.cell c := rfl

/-! ### `setCond` -/

@[simp] theorem State.setCond_getX (s : State) (v : Word) (j : Reg) : (s.setCond v).getX j = s.getX j := rfl
@[simp] theorem State.setCond_x (s : State) (v : Word) : (s.setCond v).x = s.x := rfl
@[simp] theorem State.setCond_pc (s : State) (v : Word) : (s.setCond v).pc = s.pc := rfl
@[simp] theorem State.setCond_cond (s : State) (v : Word) : (s.setCond v).cond = v := rfl
@[simp] theorem State.setCond_mem (s : State) (v : Word) : (s.setCond v).mem = s.mem := rfl
@[simp] theorem State.setCond_run (s : State) (v : Word) : (s.setCond v).run = s.run := rfl
@[simp] theorem State.setCond_kbq (s : State) (v : Word) : (s.setCond v).kbq = s.kbq := rfl
@[simp] theorem State.setCond_out (s : State) (v : Word) : (s.setCond v).out = s.out := rfl
@[simp] theorem State.setCond_cell (s : State) (v : Word) (c : Word) : (s.setCond v).cell c = s.cell c := rfl

/-! ### `setMem` -/

@[simp] theorem State.setMem_getX (s : State) (m : Memory) (j : Reg) : (s.setMem m).getX j = s.getX j := rfl
@[simp] theorem State.setMem_x (s : State) (m : Memory) : (s.setMem m).x = s.x := rfl
@[simp] theorem State.setMem_pc (s : State) (m : Memory) : (s.setMem m).pc = s.pc := rfl
@[simp] theorem State.setMem_cond (s : State) (m : Memory) : (s.setMem m).cond = s.cond := rfl
@[simp] theorem State.setMem_mem (s : State) (m : Memory) : (s.setMem m).mem = m := rfl
@[simp] theorem State.setMem_run (s : State) (m : Memory) : (s.setMem m).run = s.run := rfl
@[simp] theorem State.setMem_kbq (s : State) (m : Memory) : (s.setMem m).kbq = s.kbq := rfl
@[simp] theorem State.setMem_out (s : State) (m : Memory) : (s.setMem m).out = s.out := rfl
@[simp] theorem State.setMem_cell (s : State) (m : Memory) (c : Word) : (s.setMem m).cell c = m.readWord c := rfl

/-! ### `setRun` -/

@[simp] theorem State.setRun_getX (s : State) (r : RunState) (j : Reg) : (s.setRun r).getX j = s.getX j := rfl
@[simp] theorem State.setRun_x (s : State) (r : RunState) : (s.setRun r).x = s.x := rfl
@[simp] theorem State.setRun_pc (s : State) (r : RunState) : (s.setRun r).pc = s.pc := rfl
@[simp] theorem State.setRun_cond (s : State) (r : RunState) : (s.setRun r).cond = s.cond := rfl
@[simp] theorem State.setRun_mem (s : State) (r : RunState) : (s.setRun r).mem = s.mem := rfl
@[simp] theorem State.setRun_run (s : State) (r : RunState) : (s.setRun r).run = r := rfl
@[simp] theorem State.setRun_kbq (s : State) (r : RunState) : (s.setRun r).kbq = s.kbq := rfl
@[simp] theorem State.setRun_out (s : State) (r : RunState) : (s.setRun r).out = s.out := rfl
@[simp] theorem State.setRun_cell (s : State) (r : RunState) (c : Word) : (s.setRun r).cell c = s.cell c := rfl

/-! ### `setKbq` -/

@[simp] theorem State.setKbq_getX (s : State) (q : List Byte) (j : Reg) : (s.setKbq q).getX j = s.getX j := rfl
@[simp] theorem State.setKbq_x (s : State) (q : List Byte) : (s.setKbq q).x = s.x := rfl
@[simp] theorem State.setKbq_pc (s : State) (q : List Byte) : (s.setKbq q).pc = s.pc := rfl
@[simp] theorem State.setKbq_cond (s : State) (q : List Byte) : (s.setKbq q).cond = s.cond := rfl
@[simp] theorem State.setKbq_mem (s : State) (q : List Byte) : (s.setKbq q).mem = s.mem := rfl
@[simp] theorem State.setKbq_run (s : State) (q : List Byte) : (s.setKbq q).run = s.run := rfl
@[simp] theorem State.setKbq_kbq (s : State) (q : List Byte) : (s.setKbq q).kbq = q := rfl
@[simp] theorem State.setKbq_out (s : State) (q : List Byte) : (s.setKbq q).out = s.out := rfl
@[simp] theorem State.setKbq_cell (s : State) (q : List Byte) (c : Word) : (s.setKbq q).cell c = s.cell c := rfl

/-! ### `outBytes` -/

@[simp] theorem State.outBytes_getX (s : State) (bs : List Byte) (j : Reg) : (s.outBytes bs).getX j = s.getX j := rfl
@[simp] theorem State.outBytes_x (s : State) (bs : List Byte) : (s.outBytes bs).x = s.x := rfl
@[simp] theorem State.outBytes_pc (s : State) (bs : List Byte) : (s.outBytes bs).pc = s.pc := rfl
@[simp] theorem State.outBytes_cond (s : State) (bs : List Byte) : (s.outBytes bs).cond = s.cond := rfl
@[simp] theorem State.outBytes_mem (s : State) (bs : List Byte) : (s.outBytes bs).mem = s.mem := rfl
@[simp] theorem State.outBytes_run (s : State) (bs : List Byte) : (s.outBytes bs).run = s.run := rfl
@[simp] theorem State.outBytes_kbq (s : State) (bs : List Byte) : (s.outBytes bs).kbq = s.kbq := rfl
@[simp] theorem State.outBytes_out (s : State) (bs : List Byte) : (s.outBytes bs).out = s.out ++ bs := rfl
@[simp] theorem State.outBytes_cell (s : State) (bs : List Byte) (c : Word) : (s.outBytes bs).cell c = s.cell c := rfl
/-! ### Equality of states -/

/-- Register files that read the same are the same. -/
theorem State.x_eq_of_getX {s t : State} (h : ∀ r, s.getX r = t.getX r) : s.x = t.x := by
  apply Vector.ext
  intro i hi
  exact h ⟨i, hi⟩

/-- States that read the same are the same. -/
theorem State.eq_of_fields {s t : State} (hx : ∀ r, s.getX r = t.getX r) (hpc : s.pc = t.pc) (hcond : s.cond = t.cond)
    (hmem : s.mem = t.mem) (hrun : s.run = t.run) (hkbq : s.kbq = t.kbq) (hout : s.out = t.out) : s = t := by
  have := State.x_eq_of_getX hx
  cases s
  cases t
  simp_all

/-- Setting a run state that stands changes nothing. -/
theorem State.setRun_self {s : State} {r : RunState} (h : s.run = r) : s.setRun r = s := by
  subst h
  rfl

/-- Setting the input queue that stands changes nothing. -/
theorem State.setKbq_self {s : State} {q : List Byte} (h : s.kbq = q) : s.setKbq q = s := by
  subst h
  rfl

@[simp] theorem State.outBytes_nil (s : State) : s.outBytes [] = s := by
  simp [State.outBytes]

theorem State.outBytes_append (s : State) (b c : List Byte) : (s.outBytes b).outBytes c = s.outBytes (b ++ c) := by
  simp [State.outBytes]

end Sys2Proof.Machine
end

