-- ==== Sys2Proof/Laws/Ops.lean ====
section
/-! SUPPORT. What each shared operation does, once: cells, the keyboard gate, the gated read, the stop, the fetch. -/

namespace Sys2Proof.Machine

/-! ### Cells -/

theorem State.setCell_cell (s : State) (a v c : Word) : (s.setCell a v).cell c = if c = a then v else s.cell c :=
  Memory.readWord_writeWord s.mem a v c

theorem State.setCell_readByte (s : State) (a v : Word) (k : Nat) :
    (s.setCell a v).mem.readByte k =
      if k = lowKey a then lowByte v else if k = highKey a then highByte v else s.mem.readByte k :=
  Memory.readByte_writeWord s.mem a v k

theorem State.setCell_wf {s : State} (h : s.mem.wf) (a v : Word) : (s.setCell a v).mem.wf := Memory.wf_writeWord h a v

@[simp] theorem State.setCell_getX (s : State) (a v : Word) (r : Reg) : (s.setCell a v).getX r = s.getX r := rfl
@[simp] theorem State.setCell_x (s : State) (a v : Word) : (s.setCell a v).x = s.x := rfl
@[simp] theorem State.setCell_pc (s : State) (a v : Word) : (s.setCell a v).pc = s.pc := rfl
@[simp] theorem State.setCell_cond (s : State) (a v : Word) : (s.setCell a v).cond = s.cond := rfl
@[simp] theorem State.setCell_run (s : State) (a v : Word) : (s.setCell a v).run = s.run := rfl
@[simp] theorem State.setCell_kbq (s : State) (a v : Word) : (s.setCell a v).kbq = s.kbq := rfl
@[simp] theorem State.setCell_out (s : State) (a v : Word) : (s.setCell a v).out = s.out := rfl

/-! ### The output channel, the stop and the flags -/

@[simp] theorem State.outByte_eq (s : State) (b : Byte) : s.outByte b = s.outBytes [b] := rfl
@[simp] theorem State.raiseStop_eq (s : State) (c : StopCause) : s.raiseStop c = s.setRun (.stopped c) := rfl
@[simp] theorem State.memWrite_eq (s : State) (a v : Word) : s.memWrite a v = s.setCell a v := rfl

theorem State.setXcc_eq (s : State) (i : Reg) (v : Word) : s.setXcc i v = (s.setX i v).setCond (condOf v) := by
  simp [State.setXcc, State.setcc]

/-- `setcc` always leaves exactly one flag (00_scope.md rule R5). -/
theorem condOf_cases (v : Word) : condOf v = flPos ∨ condOf v = flZro ∨ condOf v = flNeg := by
  unfold condOf
  split
  · simp
  · split <;> simp

/-! ### The keyboard gate -/

theorem State.kbPoll_empty {s : State} (h : s.kbq = []) : s.kbPoll = s.setCell kbsrAddr 0x0000#16 := by
  simp [State.kbPoll, h]

theorem State.kbPoll_byte {s : State} {b : Byte} {q : List Byte} (h : s.kbq = b :: q) :
    s.kbPoll = ((s.setKbq q).setCell kbsrAddr kbReady).setCell kbdrAddr (zext8 b) := by
  simp [State.kbPoll, h]

theorem State.gate_of_ne {s : State} {a : Word} (h : a ≠ kbsrAddr) : s.gate a = s := by simp [State.gate, h]

@[simp] theorem State.gate_kbsr (s : State) : s.gate kbsrAddr = s.kbPoll := by simp [State.gate]

/-- Everything a gate can be: nothing, a poll that found no byte, or a poll that took one. -/
theorem State.gate_cases (s : State) (a : Word) :
    (a ≠ kbsrAddr ∧ s.gate a = s) ∨
    (a = kbsrAddr ∧ s.kbq = [] ∧ s.gate a = s.setCell kbsrAddr 0x0000#16) ∨
    (a = kbsrAddr ∧ ∃ b q, s.kbq = b :: q ∧
      s.gate a = ((s.setKbq q).setCell kbsrAddr kbReady).setCell kbdrAddr (zext8 b)) := by
  by_cases h : a = kbsrAddr
  · subst h
    cases hq : s.kbq with
    | nil => exact .inr (.inl ⟨rfl, rfl, by simp [State.kbPoll_empty hq]⟩)
    | cons b q => exact .inr (.inr ⟨rfl, b, q, rfl, by simp [State.kbPoll_byte hq]⟩)
  · exact .inl ⟨h, State.gate_of_ne h⟩

@[simp] theorem State.gate_getX (s : State) (a : Word) (r : Reg) : (s.gate a).getX r = s.getX r := by
  obtain ⟨_, h⟩ | ⟨_, _, h⟩ | ⟨_, b, q, _, h⟩ := s.gate_cases a <;> simp [h]

@[simp] theorem State.gate_pc (s : State) (a : Word) : (s.gate a).pc = s.pc := by
  obtain ⟨_, h⟩ | ⟨_, _, h⟩ | ⟨_, b, q, _, h⟩ := s.gate_cases a <;> simp [h]

@[simp] theorem State.gate_cond (s : State) (a : Word) : (s.gate a).cond = s.cond := by
  obtain ⟨_, h⟩ | ⟨_, _, h⟩ | ⟨_, b, q, _, h⟩ := s.gate_cases a <;> simp [h]

@[simp] theorem State.gate_run (s : State) (a : Word) : (s.gate a).run = s.run := by
  obtain ⟨_, h⟩ | ⟨_, _, h⟩ | ⟨_, b, q, _, h⟩ := s.gate_cases a <;> simp [h]

@[simp] theorem State.gate_out (s : State) (a : Word) : (s.gate a).out = s.out := by
  obtain ⟨_, h⟩ | ⟨_, _, h⟩ | ⟨_, b, q, _, h⟩ := s.gate_cases a <;> simp [h]

/-- A gate takes at most the head of the queue. -/
theorem State.gate_kbq_suffix (s : State) (a : Word) : (s.gate a).kbq <:+ s.kbq := by
  obtain ⟨_, h⟩ | ⟨_, _, h⟩ | ⟨_, b, q, hq, h⟩ := s.gate_cases a
  · simp [h]
  · simp [h]
  · simp [h, hq, List.suffix_cons]

/-- A gate keeps the canonical form of memory. -/
theorem State.gate_wf {s : State} (hm : s.mem.wf) (a : Word) : (s.gate a).mem.wf := by
  obtain ⟨_, h⟩ | ⟨_, _, h⟩ | ⟨_, b, q, _, h⟩ := s.gate_cases a
  · rwa [h]
  · rw [h]
    exact State.setCell_wf hm _ _
  · rw [h]
    exact State.setCell_wf (State.setCell_wf (by simpa using hm) _ _) _ _

/-- A gate changes no byte outside the two keyboard registers. -/
theorem State.gate_readByte (s : State) (a : Word) {k : Nat} (h1 : k ≠ highKey kbsrAddr) (h2 : k ≠ lowKey kbsrAddr)
    (h3 : k ≠ highKey kbdrAddr) (h4 : k ≠ lowKey kbdrAddr) : (s.gate a).mem.readByte k = s.mem.readByte k := by
  obtain ⟨_, h⟩ | ⟨_, _, h⟩ | ⟨_, b, q, _, h⟩ := s.gate_cases a <;>
    simp [h, State.setCell_readByte, h1, h2, h3, h4]

/-! ### The gated read -/

@[simp] theorem State.memRead_fst (s : State) (a : Word) : (s.memRead a).1 = (s.gate a).cell a := rfl
@[simp] theorem State.memRead_snd (s : State) (a : Word) : (s.memRead a).2 = s.gate a := rfl

/-- A read of any address but KBSR is the cell, and changes nothing (20_memory.md rule R31). -/
theorem State.memRead_of_ne {s : State} {a : Word} (h : a ≠ kbsrAddr) : s.memRead a = (s.cell a, s) := by
  simp [State.memRead, State.gate_of_ne h]

/-- A read of KBSR with no byte queued gives 0 (20_memory.md rule R33). -/
theorem State.memRead_kbsr_empty {s : State} (h : s.kbq = []) :
    s.memRead kbsrAddr = (0x0000#16, s.setCell kbsrAddr 0x0000#16) := by
  simp [State.memRead, State.kbPoll_empty h, State.setCell_cell]

theorem kbsrAddr_ne_kbdrAddr : kbsrAddr ≠ kbdrAddr := by decide

/-- A read of KBSR with a byte queued gives 0x8000 and moves the byte to KBDR (20_memory.md rule R33). -/
theorem State.memRead_kbsr_byte {s : State} {b : Byte} {q : List Byte} (h : s.kbq = b :: q) :
    s.memRead kbsrAddr =
      (kbReady, ((s.setKbq q).setCell kbsrAddr kbReady).setCell kbdrAddr (zext8 b)) := by
  simp [State.memRead, State.kbPoll_byte h, State.setCell_cell, kbsrAddr_ne_kbdrAddr]

/-! ### The addressing modes -/

@[simp] theorem State.pcRel9_eq (s : State) (off : BitVec 9) : s.pcRel9 off = s.pc + sext off := rfl
@[simp] theorem State.pcRel11_eq (s : State) (off : BitVec 11) : s.pcRel11 off = s.pc + sext off := rfl
@[simp] theorem State.baseOff_eq (s : State) (r : Reg) (off : BitVec 6) : s.baseOff r off = s.getX r + sext off := rfl
@[simp] theorem State.indirect_eq (s : State) (off : BitVec 9) : s.indirect off = s.memRead (s.pc + sext off) := rfl

/-- A load leaves the gate's memory and queue and the destination's flags (41_load_store.md rules R80 to R82). -/
theorem State.loadFrom_eq (s : State) (dr : Reg) (a : Word) :
    s.loadFrom dr a = ((s.gate a).setX dr ((s.gate a).cell a)).setCond (condOf ((s.gate a).cell a)) := by
  simp [State.loadFrom, State.setXcc_eq]

/-! ### The fetch -/

@[simp] theorem State.fetch_fst (s : State) : s.fetch.1 = (s.gate s.pc).cell s.pc := rfl
@[simp] theorem State.fetch_snd (s : State) : s.fetch.2 = (s.gate s.pc).setPc (s.pc + 1#16) := rfl

/-- A fetch from any address but KBSR. -/
theorem State.fetch_of_ne {s : State} (h : s.pc ≠ kbsrAddr) : s.fetch = (s.cell s.pc, s.setPc (s.pc + 1#16)) := by
  simp [State.fetch, State.memRead_of_ne h]

/-- The increment does not wrap: a fetch is never from 0xFFFF (10_state.md rule R11). -/
theorem next_pc_ne_zero {a : Word} (h : a ≠ pcLast) : a + 1#16 ≠ 0x0000#16 := by
  intro h0
  apply h
  have := congrArg (fun w => w - 1#16) h0
  simpa [pcLast] using this

/-! ### The blocking reads -/

theorem State.awaitKb_empty {s : State} (hold : RunState) (take : State → Byte → State) (h : s.kbq = []) :
    s.awaitKb hold take = s.setRun hold := by
  simp [State.awaitKb, h]

theorem State.awaitKb_byte {s : State} (hold : RunState) (take : State → Byte → State) {b : Byte} {q : List Byte}
    (h : s.kbq = b :: q) : s.awaitKb hold take = take ((s.setKbq q).setRun .running) b := by
  simp [State.awaitKb, h]

end Sys2Proof.Machine
end

