-- ==== Sys2Proof/Laws/HostMoves.lean ====
section
/-! SUPPORT. What the host's moves do, once: appending bytes, and writing the words of an image. -/

namespace Sys2Proof.Machine.Laws

/-- Appending bytes one after another appends them all. -/
theorem hostAppend_foldl (s : State) (bs : List Byte) : bs.foldl State.hostAppend s = s.setKbq (s.kbq ++ bs) := by
  induction bs generalizing s with
  | nil => exact (State.setKbq_self (by simp)).symm
  | cons b bs ih => rw [List.foldl_cons, ih]; simp [State.hostAppend, State.setKbq]

/-- Writing the words of an image changes nothing but memory. -/
theorem loadWords_setMem (ws : List Word) (a : Word) (s : State) :
    State.loadWords a ws s = s.setMem (State.loadWords a ws s).mem := by
  induction ws generalizing a s with
  | nil => rfl
  | cons w ws ih => exact ih (a + 1#16) (s.setCell a w)

theorem loadWords_wf (ws : List Word) (a : Word) {s : State} (h : s.mem.wf) : (State.loadWords a ws s).mem.wf := by
  induction ws generalizing a s with
  | nil => exact h
  | cons w ws ih => exact ih (a + 1#16) (State.setCell_wf h a w)

theorem next_word (a : Word) (j : Nat) : a + 1#16 + BitVec.ofNat 16 j = a + BitVec.ofNat 16 (j + 1) := by
  rw [BitVec.add_assoc, Nat.add_comm, BitVec.ofNat_add]

/-- A cell at which no word of an image is placed is as before. -/
theorem loadWords_cell_of_ne (ws : List Word) (a : Word) (s : State) {c : Word}
    (h : ∀ j, j < ws.length → c ≠ a + BitVec.ofNat 16 j) : (State.loadWords a ws s).cell c = s.cell c := by
  induction ws generalizing a s with
  | nil => rfl
  | cons w ws ih =>
    have h0 : c ≠ a := by simpa using h 0 (by simp)
    rw [State.loadWords, ih (a + 1#16) _ fun j hj => next_word a j ▸ h (j + 1) (by simpa using hj), State.setCell_cell,
      if_neg h0]

/-- The words of an image that does not wrap stand at consecutive cells. -/
theorem loadWords_cell (ws : List Word) (a : Word) (s : State) (fits : ws.length ≤ 65536) {j : Nat} (hj : j < ws.length) :
    (State.loadWords a ws s).cell (a + BitVec.ofNat 16 j) = ws[j] := by
  induction ws generalizing a s j with
  | nil => simp at hj
  | cons w ws ih =>
    simp only [List.length_cons] at fits hj
    cases j with
    | zero =>
      have apart : ∀ j, j < ws.length → a + BitVec.ofNat 16 0 ≠ a + 1#16 + BitVec.ofNat 16 j := by
        intro j hj he
        have := congrArg BitVec.toNat ((BitVec.add_right_inj a).mp ((next_word a j) ▸ he))
        simp at this
        omega
      rw [State.loadWords, loadWords_cell_of_ne ws _ _ apart]
      simp [State.setCell_cell]
    | succ j =>
      rw [State.loadWords, ← next_word a j, ih (a + 1#16) _ (by omega) (by omega)]
      rfl

end Sys2Proof.Machine.Laws
end

