-- ==== Sys2Proof/Laws/PerInstr.lean ====
section
/-! SUPPORT. Per instruction: the encoder's word lies in the instruction's row of spec/opcode_table.json (its fixed bits are
the row's), one lemma for each constructor. -/

namespace Sys2Proof.Laws.RowEncoding

/-- The word the encoder writes has the fixed bits of the instruction's row. -/
def Statement (i : Instr) : Prop := encode i &&& rowMask i = rowMatch i

/-- A masked word is known from its bits. -/
theorem of_bits {w mask fixed : Word} (h : ∀ j < 16, (w.getLsbD j && mask.getLsbD j) = fixed.getLsbD j) :
    w &&& mask = fixed := by
  ext j hj
  simpa [BitVec.getLsbD_eq_getElem hj] using h j hj

theorem br (n z p : Bool) (off : BitVec 9) : Statement (.br n z p off) := by
  refine of_bits fun j hj => ?_
  simp only [encode, rowMask, rowMatch, BitVec.getLsbD_append]
  interval_cases j <;> simp

theorem addReg (dr sr1 sr2 : Reg) : Statement (.addReg dr sr1 sr2) := by
  refine of_bits fun j hj => ?_
  simp only [encode, rowMask, rowMatch, BitVec.getLsbD_append]
  interval_cases j <;> simp

theorem addImm (dr sr1 : Reg) (imm : BitVec 5) : Statement (.addImm dr sr1 imm) := by
  refine of_bits fun j hj => ?_
  simp only [encode, rowMask, rowMatch, BitVec.getLsbD_append]
  interval_cases j <;> simp

theorem ld (dr : Reg) (off : BitVec 9) : Statement (.ld dr off) := by
  refine of_bits fun j hj => ?_
  simp only [encode, rowMask, rowMatch, BitVec.getLsbD_append]
  interval_cases j <;> simp

theorem st (sr : Reg) (off : BitVec 9) : Statement (.st sr off) := by
  refine of_bits fun j hj => ?_
  simp only [encode, rowMask, rowMatch, BitVec.getLsbD_append]
  interval_cases j <;> simp

theorem jsr (off : BitVec 11) : Statement (.jsr off) := by
  refine of_bits fun j hj => ?_
  simp only [encode, rowMask, rowMatch, BitVec.getLsbD_append]
  interval_cases j <;> simp

theorem jsrr (baseR : Reg) : Statement (.jsrr baseR) := by
  refine of_bits fun j hj => ?_
  simp only [encode, rowMask, rowMatch, BitVec.getLsbD_append]
  interval_cases j <;> simp

theorem andReg (dr sr1 sr2 : Reg) : Statement (.andReg dr sr1 sr2) := by
  refine of_bits fun j hj => ?_
  simp only [encode, rowMask, rowMatch, BitVec.getLsbD_append]
  interval_cases j <;> simp

theorem andImm (dr sr1 : Reg) (imm : BitVec 5) : Statement (.andImm dr sr1 imm) := by
  refine of_bits fun j hj => ?_
  simp only [encode, rowMask, rowMatch, BitVec.getLsbD_append]
  interval_cases j <;> simp

theorem ldr (dr baseR : Reg) (off : BitVec 6) : Statement (.ldr dr baseR off) := by
  refine of_bits fun j hj => ?_
  simp only [encode, rowMask, rowMatch, BitVec.getLsbD_append]
  interval_cases j <;> simp

theorem str (sr baseR : Reg) (off : BitVec 6) : Statement (.str sr baseR off) := by
  refine of_bits fun j hj => ?_
  simp only [encode, rowMask, rowMatch, BitVec.getLsbD_append]
  interval_cases j <;> simp

theorem rti : Statement .rti := by unfold Statement; decide

theorem not (dr sr : Reg) : Statement (.not dr sr) := by
  refine of_bits fun j hj => ?_
  simp only [encode, rowMask, rowMatch, BitVec.getLsbD_append]
  interval_cases j <;> simp

theorem ldi (dr : Reg) (off : BitVec 9) : Statement (.ldi dr off) := by
  refine of_bits fun j hj => ?_
  simp only [encode, rowMask, rowMatch, BitVec.getLsbD_append]
  interval_cases j <;> simp

theorem sti (sr : Reg) (off : BitVec 9) : Statement (.sti sr off) := by
  refine of_bits fun j hj => ?_
  simp only [encode, rowMask, rowMatch, BitVec.getLsbD_append]
  interval_cases j <;> simp

theorem jmp (baseR : Reg) : Statement (.jmp baseR) := by
  refine of_bits fun j hj => ?_
  simp only [encode, rowMask, rowMatch, BitVec.getLsbD_append]
  interval_cases j <;> simp

theorem ret : Statement .ret := by unfold Statement; decide

theorem res : Statement .res := by unfold Statement; decide

theorem lea (dr : Reg) (off : BitVec 9) : Statement (.lea dr off) := by
  refine of_bits fun j hj => ?_
  simp only [encode, rowMask, rowMatch, BitVec.getLsbD_append]
  interval_cases j <;> simp

theorem getc : Statement .getc := by unfold Statement; decide

theorem out : Statement .out := by unfold Statement; decide

theorem puts : Statement .puts := by unfold Statement; decide

theorem inp : Statement .inp := by unfold Statement; decide

theorem putsp : Statement .putsp := by unfold Statement; decide

theorem halt : Statement .halt := by unfold Statement; decide

theorem trap (v : BitVec 8) : Statement (.trap v) := by
  refine of_bits fun j hj => ?_
  simp only [encode, rowMask, rowMatch, BitVec.getLsbD_append]
  interval_cases j <;> simp

end Sys2Proof.Laws.RowEncoding
end

