-- ==== Sys2Proof/Laws/Strings.lean ====
section
/-! SUPPORT. The string routines: what a run of the loop can change, and that the bound of 43_trap.md rule R103 is enough. -/

namespace Sys2Proof.Machine.Laws

/-- How many reads a string from `a` can take: up to 0xFE00 the address decides, and each read of 0xFE00 that does not end
the string takes a byte off the queue. -/
def readsLeft (s : State) (a : Word) : Nat := s.kbq.length * 65536 + (kbsrAddr - a).toNat + 1

theorem readsLeft_le_stringBound (s : State) (a : Word) : readsLeft s a ≤ s.stringBound := by
  have := (kbsrAddr - a).isLt
  unfold readsLeft State.stringBound
  omega

theorem dist_next {a : Word} (h : a ≠ kbsrAddr) : (kbsrAddr - (a + 1#16)).toNat + 1 = (kbsrAddr - a).toNat := by
  have hn : a.toNat ≠ kbsrAddr.toNat := fun e => h (BitVec.eq_of_toNat_eq e)
  have := a.isLt
  simp [BitVec.toNat_sub, BitVec.toNat_add, kbsrAddr] at *
  omega

/-- A read that does not end the string leaves fewer reads. -/
theorem readsLeft_decreases {s : State} {a : Word} (bs : List Byte) (h : (s.memRead a).1 ≠ 0x0000#16) :
    readsLeft ((s.memRead a).2.outBytes bs) (a + 1#16) < readsLeft s a := by
  unfold readsLeft
  rw [State.memRead_snd, State.outBytes_kbq]
  obtain ⟨hne, hg⟩ | ⟨rfl, hq, _⟩ | ⟨rfl, b, q, hq, hg⟩ := s.gate_cases a
  · have := dist_next hne
    rw [hg]
    omega
  · exact absurd (by rw [State.memRead_kbsr_empty hq]) h
  · have hd : (kbsrAddr - (kbsrAddr + 1#16)).toNat = 65535 := by decide
    rw [hd, hg, hq, List.length_cons]
    simp only [State.setCell_kbq, State.setKbq_kbq]
    omega

theorem stringLoop_zero_word {bytes : Word → List Byte} {a : Word} {s : State} (n : Nat)
    (h : (s.memRead a).1 = 0x0000#16) : stringLoop bytes (n + 1) a s = (s.memRead a).2 := by
  rw [stringLoop, if_pos h]

theorem stringLoop_other_word {bytes : Word → List Byte} {a : Word} {s : State} (n : Nat)
    (h : (s.memRead a).1 ≠ 0x0000#16) : stringLoop bytes (n + 1) a s =
      stringLoop bytes n (a + 1#16) ((s.memRead a).2.outBytes (bytes (s.memRead a).1)) := by
  rw [stringLoop, if_neg h]

/-- With reads left to spare, one more changes nothing. -/
theorem stringLoop_succ (bytes : Word → List Byte) (n : Nat) (a : Word) (s : State) (h : readsLeft s a ≤ n) :
    stringLoop bytes (n + 1) a s = stringLoop bytes n a s := by
  induction n generalizing a s with
  | zero => exact absurd h (by unfold readsLeft; omega)
  | succ n ih =>
    by_cases hz : (s.memRead a).1 = 0x0000#16
    · rw [stringLoop_zero_word _ hz, stringLoop_zero_word _ hz]
    · have hlt := readsLeft_decreases (bytes (s.memRead a).1) hz
      rw [stringLoop_other_word _ hz, stringLoop_other_word _ hz, ih _ _ (by omega)]

/-- Any two bounds that leave enough reads give the same result: the loop ends within them. -/
theorem stringLoop_bound_enough (bytes : Word → List Byte) {n m : Nat} (a : Word) (s : State) (hn : readsLeft s a ≤ n)
    (hm : readsLeft s a ≤ m) : stringLoop bytes n a s = stringLoop bytes m a s := by
  have up : ∀ k, stringLoop bytes (readsLeft s a + k) a s = stringLoop bytes (readsLeft s a) a s := by
    intro k
    induction k with
    | zero => rfl
    | succ k ih => rw [← Nat.add_assoc, stringLoop_succ bytes _ a s (by omega), ih]
  obtain ⟨i, rfl⟩ := Nat.exists_eq_add_of_le hn
  obtain ⟨j, rfl⟩ := Nat.exists_eq_add_of_le hm
  rw [up, up]

/-- Everything a run of the loop can change: `out` grows at its end, `kbq` loses bytes at its head, and memory changes in the
two keyboard registers only. -/
structure StringFrame (s t : State) : Prop where
  getX : ∀ r, t.getX r = s.getX r
  pc : t.pc = s.pc
  cond : t.cond = s.cond
  run : t.run = s.run
  out : s.out <+: t.out
  kbq : t.kbq <:+ s.kbq
  wf : s.mem.wf → t.mem.wf
  readByte : ∀ k, k ≠ highKey kbsrAddr → k ≠ lowKey kbsrAddr → k ≠ highKey kbdrAddr → k ≠ lowKey kbdrAddr →
    t.mem.readByte k = s.mem.readByte k

theorem stringFrame_gate (s : State) (a : Word) (bs : List Byte) : StringFrame s ((s.gate a).outBytes bs) where
  getX := by simp
  pc := by simp
  cond := by simp
  run := by simp
  out := by simp
  kbq := by simpa using s.gate_kbq_suffix a
  wf h := by simpa using State.gate_wf h a
  readByte k h1 h2 h3 h4 := by simpa using s.gate_readByte a h1 h2 h3 h4

theorem StringFrame.trans {s t u : State} (h : StringFrame s t) (g : StringFrame t u) : StringFrame s u where
  getX r := (g.getX r).trans (h.getX r)
  pc := g.pc.trans h.pc
  cond := g.cond.trans h.cond
  run := g.run.trans h.run
  out := h.out.trans g.out
  kbq := g.kbq.trans h.kbq
  wf hs := g.wf (h.wf hs)
  readByte k h1 h2 h3 h4 := (g.readByte k h1 h2 h3 h4).trans (h.readByte k h1 h2 h3 h4)

theorem stringLoop_frame (bytes : Word → List Byte) (n : Nat) (a : Word) (s : State) :
    StringFrame s (stringLoop bytes n a s) := by
  induction n generalizing a s with
  | zero => exact ⟨fun _ => rfl, rfl, rfl, rfl, List.prefix_refl _, List.suffix_refl _, id, fun _ _ _ _ _ => rfl⟩
  | succ n ih =>
    rw [stringLoop]
    split
    · simpa using stringFrame_gate s a []
    · exact (stringFrame_gate s a _).trans (ih _ _)

theorem writeString_frame (s : State) (bytes : Word → List Byte) (a : Word) : StringFrame s (s.writeString bytes a) :=
  stringLoop_frame bytes _ a s

end Sys2Proof.Machine.Laws
end

