-- ==== Sys2Proof/Laws/Step.lean ====
section
/-! SUPPORT. What a step, a blocking read and a service routine can do, each said once: later proofs cite these and unfold
neither `step` nor a routine. -/

namespace Sys2Proof.Machine.Laws

/-! ### A step -/

/-- Everything a step that answers a next state can be: the PC-overflow stop, a fetched instruction, or a step of one of the two
blocked reads. -/
theorem step_cases {s t : State} (h : step s = .next t) :
    (s.run = .running ∧ s.pc = pcLast ∧ t = s.pcOverflowStop) ∨
    (s.run = .running ∧ s.pc ≠ pcLast ∧ exec (decode s.fetch.1) s.fetch.2 = .next t) ∨
    (s.run = .waitGetc ∧ t = s.awaitGetc) ∨
    (s.run = .waitIn ∧ t = s.awaitIn) := by
  unfold step at h
  split at h
  · split at h
    · cases h
      exact .inl ⟨‹_›, ‹_›, rfl⟩
    · exact .inr (.inl ⟨‹_›, ‹_›, h⟩)
  · cases h
    exact .inr (.inr (.inl ⟨‹_›, rfl⟩))
  · cases h
    exact .inr (.inr (.inr ⟨‹_›, rfl⟩))
  · cases h

theorem step_running {s : State} (hr : s.run = .running) (hp : s.pc ≠ pcLast) :
    step s = exec (decode s.fetch.1) s.fetch.2 := by
  simp only [step, hr, if_neg hp]

theorem step_overflow {s : State} (hr : s.run = .running) (hp : s.pc = pcLast) : step s = .next s.pcOverflowStop := by
  simp only [step, hr, if_pos hp]

theorem step_waitGetc {s : State} (hr : s.run = .waitGetc) : step s = .next s.awaitGetc := by
  simp only [step, hr]

theorem step_waitIn {s : State} (hr : s.run = .waitIn) : step s = .next s.awaitIn := by
  simp only [step, hr]

/-! ### The gate, when it takes no byte -/

/-- A gate that took no byte changed no byte outside KBSR. -/
theorem gate_readByte_of_kbq {s : State} {a : Word} {k : Nat} (h1 : k ≠ highKey kbsrAddr) (h2 : k ≠ lowKey kbsrAddr)
    (hq : (s.gate a).kbq = s.kbq) : (s.gate a).mem.readByte k = s.mem.readByte k := by
  obtain ⟨_, hg⟩ | ⟨rfl, _, hg⟩ | ⟨rfl, b, q, hbq, hg⟩ := s.gate_cases a
  · rw [hg]
  · rw [hg, State.setCell_readByte, if_neg h2, if_neg h1]
  · simp [hg, hbq] at hq

/-- A string routine that took no byte changed no byte outside KBSR. -/
theorem stringLoop_readByte_of_kbq (bytes : Word → List Byte) (n : Nat) (a : Word) (s : State)
    (hq : (stringLoop bytes n a s).kbq = s.kbq) {k : Nat} (h1 : k ≠ highKey kbsrAddr) (h2 : k ≠ lowKey kbsrAddr) :
    (stringLoop bytes n a s).mem.readByte k = s.mem.readByte k := by
  induction n generalizing a s with
  | zero => rfl
  | succ n ih =>
    rw [stringLoop] at hq ⊢
    split at hq
    · rename_i hz
      rw [if_pos hz]
      exact gate_readByte_of_kbq h1 h2 hq
    · rename_i hz
      rw [if_neg hz]
      have rest := (stringLoop_frame bytes n (a + 1#16) ((s.memRead a).2.outBytes (bytes (s.memRead a).1))).kbq
      have first : (s.gate a).kbq = s.kbq :=
        (s.gate_kbq_suffix a).eq_of_length_le (by rw [← hq]; exact rest.length_le)
      rw [ih _ _ (hq.trans first.symm)]
      exact gate_readByte_of_kbq h1 h2 first

/-! ### The blocking reads and the routines -/

/-- Everything a blocking read can be: the hold, or the head byte taken. -/
theorem awaitKb_cases (s : State) (hold : RunState) (take : State → Byte → State) :
    (s.kbq = [] ∧ s.awaitKb hold take = s.setRun hold) ∨
    ∃ b q, s.kbq = b :: q ∧ s.awaitKb hold take = take ((s.setKbq q).setRun .running) b := by
  cases h : s.kbq with
  | nil => exact .inl ⟨rfl, State.awaitKb_empty hold take h⟩
  | cons b q => exact .inr ⟨b, q, rfl, State.awaitKb_byte hold take h⟩

/-- Everything a service routine can change: `run`, R0, `out` at its end, `kbq` at its head, KBSR, and KBDR if a byte was
taken. -/
structure ServiceFrame (s t : State) : Prop where
  getX : ∀ r, r ≠ trapReg → t.getX r = s.getX r
  pc : t.pc = s.pc
  cond : t.cond = s.cond
  out : s.out <+: t.out
  kbq : t.kbq <:+ s.kbq
  wf : s.mem.wf → t.mem.wf
  readByte : ∀ k, k ≠ highKey kbsrAddr → k ≠ lowKey kbsrAddr → k ≠ highKey kbdrAddr → k ≠ lowKey kbdrAddr →
    t.mem.readByte k = s.mem.readByte k
  readByte_of_kbq : t.kbq = s.kbq → ∀ k, k ≠ highKey kbsrAddr → k ≠ lowKey kbsrAddr →
    t.mem.readByte k = s.mem.readByte k

/-- A routine that leaves memory alone has the frame when its registers and channels have. -/
theorem ServiceFrame.of_mem {s t : State} (hx : ∀ r, r ≠ trapReg → t.getX r = s.getX r) (hpc : t.pc = s.pc)
    (hcond : t.cond = s.cond) (hout : s.out <+: t.out) (hkbq : t.kbq <:+ s.kbq) (hmem : t.mem = s.mem) :
    ServiceFrame s t := by
  refine ⟨hx, hpc, hcond, hout, hkbq, fun h => hmem ▸ h, fun k _ _ _ _ => by rw [hmem], fun _ k _ _ => by rw [hmem]⟩

theorem awaitGetc_frame (s : State) : ServiceFrame s s.awaitGetc ∧ s.awaitGetc.mem = s.mem := by
  unfold State.awaitGetc
  obtain ⟨_, h⟩ | ⟨b, q, hq, h⟩ := awaitKb_cases s .waitGetc State.takeGetc <;> rw [h]
  · exact ⟨.of_mem (by simp) rfl rfl (by simp) (by simp) rfl, rfl⟩
  · exact ⟨.of_mem (fun r hr => by simp [State.takeGetc, Ne.symm hr]) rfl rfl (by simp [State.takeGetc])
      (by simp [State.takeGetc, hq, List.suffix_cons]) rfl, rfl⟩

theorem awaitIn_frame (s : State) : ServiceFrame s s.awaitIn ∧ s.awaitIn.mem = s.mem := by
  unfold State.awaitIn
  obtain ⟨_, h⟩ | ⟨b, q, hq, h⟩ := awaitKb_cases s .waitIn State.takeIn <;> rw [h]
  · exact ⟨.of_mem (by simp) rfl rfl (by simp) (by simp) rfl, rfl⟩
  · exact ⟨.of_mem (fun r hr => by simp [State.takeIn, Ne.symm hr]) rfl rfl (by simp [State.takeIn])
      (by simp [State.takeIn, hq, List.suffix_cons]) rfl, rfl⟩

theorem inRoutine_frame (s : State) : ServiceFrame s s.inRoutine ∧ s.inRoutine.mem = s.mem := by
  obtain ⟨f, hm⟩ := awaitIn_frame (s.outBytes inPrompt)
  exact ⟨.of_mem f.getX f.pc f.cond ((List.prefix_append _ _).trans f.out) f.kbq hm, hm⟩

theorem writeString_service (s : State) (bytes : Word → List Byte) (a : Word) : ServiceFrame s (s.writeString bytes a) := by
  have f := writeString_frame s bytes a
  exact ⟨fun r _ => f.getX r, f.pc, f.cond, f.out, f.kbq, f.wf, f.readByte,
    fun hq k h1 h2 => stringLoop_readByte_of_kbq bytes _ a s hq h1 h2⟩

/-- Whatever the vector, a service routine stays in the frame. -/
theorem trapService_frame (s : State) (v : BitVec 8) : ServiceFrame s (s.trapService v) := by
  unfold State.trapService
  repeat' split
  · exact (awaitGetc_frame s).1
  · exact .of_mem (fun _ _ => rfl) rfl rfl (by simp [State.outRoutine]) (by simp [State.outRoutine]) rfl
  · exact writeString_service s _ _
  · exact (inRoutine_frame s).1
  · exact writeString_service s _ _
  · exact .of_mem (fun _ _ => rfl) rfl rfl (by simp [State.haltRoutine]) (by simp [State.haltRoutine]) rfl
  · exact .of_mem (fun _ _ => rfl) rfl rfl (List.prefix_refl _) (List.suffix_refl _) rfl

end Sys2Proof.Machine.Laws
end

