-- ==== Sys2Proof/Tests/Slice0.lean ====
section
/-! SUPPORT. The model's own tests. Expected results are those of spec/95_test_vectors.md (the row is named in each test) or worked
out by hand from the rule named; none is the model's own answer. The last part shows, for every statement with hypotheses, a
concrete state and operands that meet them. -/

namespace Sys2Proof.Tests

open Sys2Proof.Machine Sys2Proof.Claims

/-! ### Helpers -/

/-- The next state of an outcome, if it is one. -/
def nextOf (o : Host.Outcome State Fault Refusal) : Option State :=
  match o with
  | .next t => some t
  | .fault _ => none
  | .refused _ => none

theorem eq_next_of_nextOf {o : Host.Outcome State Fault Refusal} {t : State} (h : nextOf o = some t) : o = .next t := by
  cases o <;> simp_all [nextOf]

/-- What one step leaves (the state itself where there is no next state). -/
def after (s : State) : State := (nextOf (step s)).getD s

theorem step_after {s : State} (h : (nextOf (step s)).isSome = true) : step s = .next (after s) := by
  apply eq_next_of_nextOf
  unfold after
  cases hn : nextOf (step s) <;> simp_all

/-- Registers written over a state, in order. -/
def State.withX : List (Reg × Word) → State → State
  | [], s => s
  | (r, v) :: rest, s => State.withX rest (s.setX r v)

/-- Cells written over a state, in order. -/
def State.withCells : List (Word × Word) → State → State
  | [], s => s
  | (a, v) :: rest, s => State.withCells rest (s.setCell a v)

/-- The reset state with the word `w` at its start address and some registers and cells (95_test_vectors.md, conventions). -/
def start (w : Word) (x : List (Reg × Word)) (cells : List (Word × Word)) : State :=
  State.withX x (State.withCells cells (State.reset.setCell 0x3000#16 w))

/-- The same, with `pc` elsewhere and the word there. -/
def startAt (pc w : Word) (x : List (Reg × Word)) (cells : List (Word × Word)) : State :=
  State.withX x (State.withCells cells ((State.reset.setPc pc).setCell pc w))

/-- A register, `pc` and `cond` after a step, if there is a next state. -/
def xAfter (r : Reg) (s : State) : Option (Word × Word × Word) :=
  (nextOf (step s)).map fun t => (t.getX r, t.pc, t.cond)

/-- A cell and the queue after a step. -/
def cellAfter (a : Word) (s : State) : Option (Word × List Byte) :=
  (nextOf (step s)).map fun t => (t.cell a, t.kbq)

/-- `out` and `run` after a step. -/
def outAfter (s : State) : Option (List Byte × RunState) :=
  (nextOf (step s)).map fun t => (t.out, t.run)

/-! ### WellFormed: the ill-formed terms are refused -/

theorem test_wellFormed_refuses_jmp_seven : (Instr.jmp 7).wellFormed = false := by decide
theorem test_wellFormed_refuses_service_vectors :
    (Instr.trap 0x20#8).wellFormed = false ∧ (Instr.trap 0x21#8).wellFormed = false ∧
    (Instr.trap 0x22#8).wellFormed = false ∧ (Instr.trap 0x23#8).wellFormed = false ∧
    (Instr.trap 0x24#8).wellFormed = false ∧ (Instr.trap 0x25#8).wellFormed = false := by decide
theorem test_wellFormed_takes_the_neighbours :
    (Instr.jmp 6).wellFormed = true ∧ (Instr.trap 0x1F#8).wellFormed = true ∧ (Instr.trap 0x26#8).wellFormed = true := by
  decide

/-! ### Decode: one word written out bit by bit for every constructor (30_encoding.md rules R55, R56) -/

theorem test_decode_br : decode (0b0000#4 ++ 0b1#1 ++ 0b0#1 ++ 0b1#1 ++ 0b111111101#9) = .br true false true 0x1FD#9 := by
  decide
theorem test_decode_addReg : decode (0b0001#4 ++ 0b110#3 ++ 0b001#3 ++ 0b0#1 ++ 0b00#2 ++ 0b011#3) = .addReg 6 1 3 := by decide
theorem test_decode_addImm : decode (0b0001#4 ++ 0b110#3 ++ 0b001#3 ++ 0b1#1 ++ 0b10001#5) = .addImm 6 1 0x11#5 := by decide
theorem test_decode_ld : decode (0b0010#4 ++ 0b110#3 ++ 0b100000001#9) = .ld 6 0x101#9 := by decide
theorem test_decode_st : decode (0b0011#4 ++ 0b110#3 ++ 0b100000001#9) = .st 6 0x101#9 := by decide
theorem test_decode_jsr : decode (0b0100#4 ++ 0b1#1 ++ 0b10000000001#11) = .jsr 0x401#11 := by decide
theorem test_decode_jsrr : decode (0b0100#4 ++ 0b0#1 ++ 0b11#2 ++ 0b110#3 ++ 0b111111#6) = .jsrr 6 := by decide
theorem test_decode_andReg : decode (0b0101#4 ++ 0b110#3 ++ 0b001#3 ++ 0b0#1 ++ 0b11#2 ++ 0b011#3) = .andReg 6 1 3 := by decide
theorem test_decode_andImm : decode (0b0101#4 ++ 0b110#3 ++ 0b001#3 ++ 0b1#1 ++ 0b10001#5) = .andImm 6 1 0x11#5 := by decide
theorem test_decode_ldr : decode (0b0110#4 ++ 0b110#3 ++ 0b001#3 ++ 0b100011#6) = .ldr 6 1 0x23#6 := by decide
theorem test_decode_str : decode (0b0111#4 ++ 0b110#3 ++ 0b001#3 ++ 0b100011#6) = .str 6 1 0x23#6 := by decide
theorem test_decode_rti : decode (0b1000#4 ++ 0b101010111100#12) = .rti := by decide
theorem test_decode_not : decode (0b1001#4 ++ 0b110#3 ++ 0b001#3 ++ 0b111111#6) = .not 6 1 := by decide
theorem test_decode_ldi : decode (0b1010#4 ++ 0b110#3 ++ 0b100000001#9) = .ldi 6 0x101#9 := by decide
theorem test_decode_sti : decode (0b1011#4 ++ 0b110#3 ++ 0b100000001#9) = .sti 6 0x101#9 := by decide
theorem test_decode_jmp : decode (0b1100#4 ++ 0b000#3 ++ 0b011#3 ++ 0b000000#6) = .jmp 3 := by decide
theorem test_decode_ret : decode (0b1100#4 ++ 0b101#3 ++ 0b111#3 ++ 0b010101#6) = .ret := by decide
theorem test_decode_res : decode (0b1101#4 ++ 0b101010111100#12) = .res := by decide
theorem test_decode_lea : decode (0b1110#4 ++ 0b110#3 ++ 0b100000001#9) = .lea 6 0x101#9 := by decide
theorem test_decode_getc : decode (0b1111#4 ++ 0b0000#4 ++ 0b00100000#8) = .getc := by decide
theorem test_decode_out : decode (0b1111#4 ++ 0b1010#4 ++ 0b00100001#8) = .out := by decide
theorem test_decode_puts : decode (0b1111#4 ++ 0b0000#4 ++ 0b00100010#8) = .puts := by decide
theorem test_decode_inp : decode (0b1111#4 ++ 0b0000#4 ++ 0b00100011#8) = .inp := by decide
theorem test_decode_putsp : decode (0b1111#4 ++ 0b0000#4 ++ 0b00100100#8) = .putsp := by decide
theorem test_decode_halt : decode (0b1111#4 ++ 0b0000#4 ++ 0b00100101#8) = .halt := by decide
theorem test_decode_trap : decode (0b1111#4 ++ 0b0000#4 ++ 0b00011111#8) = .trap 0x1F#8 := by decide

/-- The words of 95_test_vectors.md, as the encoder must write them. -/
theorem test_encode_words :
    encode (.not 0 1) = 0x907F#16 ∧ encode (.addReg 0 1 2) = 0x1042#16 ∧ encode (.str 5 1 0x3F#6) = 0x7A7F#16 ∧
    encode (.br true false true 0x1FD#9) = 0x0BFD#16 ∧ encode .ret = 0xC1C0#16 ∧ encode (.jsrr 2) = 0x4080#16 := by decide

/-! ### Primitives (95_test_vectors.md section 2.1) -/

theorem test_sext5 : sext 0x0F#5 = 0x000F#16 ∧ sext 0x10#5 = 0xFFF0#16 ∧ sext 0x1F#5 = 0xFFFF#16 := by decide
theorem test_sext6 : sext 0x1F#6 = 0x001F#16 ∧ sext 0x20#6 = 0xFFE0#16 := by decide
theorem test_sext9 : sext 0x0FF#9 = 0x00FF#16 ∧ sext 0x100#9 = 0xFF00#16 := by decide
theorem test_sext11 : sext 0x3FF#11 = 0x03FF#16 ∧ sext 0x400#11 = 0xFC00#16 := by decide
theorem test_condOf : condOf 0x0000#16 = 0x0002#16 ∧ condOf 0x0001#16 = 0x0001#16 ∧ condOf 0x7FFF#16 = 0x0001#16 ∧
    condOf 0x8000#16 = 0x0004#16 ∧ condOf 0xFFFF#16 = 0x0004#16 := by decide

/-! ### One step of each instruction (95_test_vectors.md sections 1.1 and 2.2 to 2.6) -/

/-- S1. -/
theorem test_addReg_sum : xAfter 0 (start 0x1042#16 [(1, 0x0001#16), (2, 0x0002#16)] []) =
    some (0x0003#16, 0x3001#16, 0x0001#16) := by decide
/-- A4: DR = SR1 = SR2. -/
theorem test_addReg_same_register : xAfter 1 (start 0x1241#16 [(1, 0x4001#16)] []) =
    some (0x8002#16, 0x3001#16, 0x0004#16) := by decide
/-- A5. -/
theorem test_addImm_minus_one : xAfter 0 (start 0x107F#16 [] []) = some (0xFFFF#16, 0x3001#16, 0x0004#16) := by decide
/-- A7: the sum wraps. -/
theorem test_addImm_wraps : xAfter 0 (start 0x106F#16 [(1, 0xFFF1#16)] []) =
    some (0x0000#16, 0x3001#16, 0x0002#16) := by decide
/-- A10. -/
theorem test_andReg : xAfter 0 (start 0x5042#16 [(1, 0xFF00#16), (2, 0x0FF0#16)] []) =
    some (0x0F00#16, 0x3001#16, 0x0001#16) := by decide
/-- A14: the immediate is sign-extended. -/
theorem test_andImm_sign_extends : xAfter 0 (start 0x5070#16 [(1, 0xABCD#16)] []) =
    some (0xABC0#16, 0x3001#16, 0x0004#16) := by decide
/-- S5. -/
theorem test_not : xAfter 0 (start 0x907F#16 [(1, 0x000F#16)] []) = some (0xFFF0#16, 0x3001#16, 0x0004#16) := by decide
/-- A19: DR = SR. -/
theorem test_not_same_register : xAfter 2 (start 0x94BF#16 [(2, 0x00FF#16)] []) =
    some (0xFF00#16, 0x3001#16, 0x0004#16) := by decide
/-- L5: the address wraps to 0xFFFF. -/
theorem test_ld_wraps : xAfter 0 (startAt 0x0000#16 0x21FE#16 [] [(0xFFFF#16, 0x8001#16)]) =
    some (0x8001#16, 0x0001#16, 0x0004#16) := by decide
/-- L6: a load of KBSR polls. -/
theorem test_ld_polls :
    xAfter 0 ((startAt 0xFDFE#16 0x2001#16 [] []).setKbq [0x41#8]) = some (0x8000#16, 0xFDFF#16, 0x0004#16) ∧
    cellAfter 0xFE02#16 ((startAt 0xFDFE#16 0x2001#16 [] []).setKbq [0x41#8]) = some (0x0041#16, []) := by decide
/-- S6. -/
theorem test_ldi : xAfter 0 (start 0xA001#16 [] [(0x3002#16, 0x4000#16), (0x4000#16, 0x1234#16)]) =
    some (0x1234#16, 0x3001#16, 0x0001#16) := by decide
/-- L11: the pointer read polls, and the pointer is 0x8000. -/
theorem test_ldi_pointer_polls :
    xAfter 0 ((startAt 0xFDFE#16 0xA001#16 [] [(0x0000#16, 0x2222#16), (0x8000#16, 0x1111#16)]).setKbq [0x41#8]) =
      some (0x1111#16, 0xFDFF#16, 0x0001#16) := by decide
/-- L14: DR = BaseR. -/
theorem test_ldr_same_register : xAfter 1 (start 0x6240#16 [(1, 0x4000#16)] [(0x4000#16, 0x9000#16)]) =
    some (0x9000#16, 0x3001#16, 0x0004#16) := by decide
/-- L16: the address wraps to 0x0000. -/
theorem test_ldr_wraps : xAfter 0 (start 0x605F#16 [(1, 0xFFE1#16)] [(0x0000#16, 0x0077#16)]) =
    some (0x0077#16, 0x3001#16, 0x0001#16) := by decide
/-- L20. -/
theorem test_lea : xAfter 0 (startAt 0x8000#16 0xE1FF#16 [] []) = some (0x8000#16, 0x8001#16, 0x0004#16) := by decide
/-- L22: no access, no poll. -/
theorem test_lea_does_not_poll :
    cellAfter 0xFE02#16 ((startAt 0xFD00#16 0xEAFF#16 [] []).setKbq [0x41#8]) = some (0x0000#16, [0x41#8]) := by decide
/-- L24: a store over the instruction itself. -/
theorem test_st_over_itself : cellAfter 0x3000#16 (start 0x33FF#16 [(1, 0x00AA#16)] []) = some (0x00AA#16, []) := by decide
/-- L28: STI's pointer read polls. -/
theorem test_sti_pointer_polls :
    cellAfter 0x8000#16 ((startAt 0xFDFE#16 0xB201#16 [(1, 0x0007#16)] []).setKbq [0x41#8]) = some (0x0007#16, []) := by
  decide
/-- L27: the pointer is overwritten. -/
theorem test_sti_over_the_pointer :
    cellAfter 0x3002#16 (start 0xB201#16 [(1, 0x0007#16)] [(0x3002#16, 0x3002#16)]) = some (0x0007#16, []) := by decide
/-- L29. -/
theorem test_str : cellAfter 0x3FFF#16 (start 0x7A7F#16 [(1, 0x4000#16), (5, 0x1111#16)] []) =
    some (0x1111#16, []) := by decide
/-- L31: a store to KBDR takes no byte. -/
theorem test_str_kbdr : cellAfter 0xFE02#16 ((start 0x7042#16 [(0, 0x0055#16), (1, 0xFE00#16)] []).setKbq [0x41#8]) =
    some (0x0055#16, [0x41#8]) := by decide
/-- C7. -/
theorem test_br_taken : xAfter 0 ((startAt 0x3004#16 0x0BFD#16 [] []).setCond 0x0004#16) =
    some (0x0000#16, 0x3002#16, 0x0004#16) := by decide
/-- C3: with no flag set, BRnzp is not taken. -/
theorem test_br_no_flag : xAfter 0 (start 0x0E05#16 [] []) = some (0x0000#16, 0x3001#16, 0x0000#16) := by decide
/-- C14: the ignored bits are ignored. -/
theorem test_jmp : xAfter 2 (start 0xCEBF#16 [(2, 0x4000#16)] []) = some (0x4000#16, 0x4000#16, 0x0000#16) := by decide
/-- C15. -/
theorem test_ret : xAfter 7 (start 0xC1C0#16 [(7, 0x3001#16)] []) = some (0x3001#16, 0x3001#16, 0x0000#16) := by decide
/-- C20. -/
theorem test_jsr : xAfter 7 (start 0x4C00#16 [] []) = some (0x3001#16, 0x2C01#16, 0x0000#16) := by decide
/-- C22. -/
theorem test_jsrr : xAfter 7 (start 0x4080#16 [(2, 0x5000#16), (7, 0x1234#16)] []) =
    some (0x3001#16, 0x5000#16, 0x0000#16) := by decide
/-- C23: the target is read after R7 is written. -/
theorem test_jsrr_seven : xAfter 7 (start 0x41C0#16 [(7, 0x5000#16)] []) =
    some (0x3001#16, 0x3001#16, 0x0000#16) := by decide
/-- T3: the byte is zero-extended. -/
theorem test_getc : xAfter 0 ((start 0xF020#16 [] []).setKbq [0xFF#8]) = some (0x00FF#16, 0x3001#16, 0x0000#16) := by decide
/-- T4: with no byte the core waits. -/
theorem test_getc_waits : outAfter (start 0xF020#16 [(0, 0x1234#16)] []) = some ([], .waitGetc) := by decide
/-- T6: the high byte is not written. -/
theorem test_out : outAfter (start 0xF021#16 [(0, 0x1241#16)] []) = some ([0x41#8], .running) := by decide
/-- T11: the string address wraps. -/
theorem test_puts_wraps :
    outAfter (start 0xF022#16 [(0, 0xFFFF#16)] [(0xFFFF#16, 0x0041#16), (0x0000#16, 0x0042#16)]) =
      some ([0x41#8, 0x42#8], .running) := by decide
/-- T13: the string runs over KBSR. -/
theorem test_puts_over_kbsr :
    outAfter ((start 0xF022#16 [(0, 0xFDFF#16)] [(0xFDFF#16, 0x0041#16), (0xFE01#16, 0x0042#16)]).setKbq [0x7A#8]) =
      some ([0x41#8, 0x00#8, 0x42#8, 0x7A#8], .running) := by decide
/-- T14: the prompt, then the echo. -/
theorem test_in : outAfter ((start 0xF023#16 [] []).setKbq [0x7A#8]) =
    some ([0x45#8, 0x6E#8, 0x74#8, 0x65#8, 0x72#8, 0x20#8, 0x61#8, 0x20#8, 0x63#8, 0x68#8, 0x61#8, 0x72#8, 0x61#8, 0x63#8,
      0x74#8, 0x65#8, 0x72#8, 0x3A#8, 0x20#8, 0x7A#8], .running) := by decide
/-- T15: the rest of IN once the host appends 0x0A. -/
theorem test_in_after_wait :
    xAfter 0 ((after (start 0xF023#16 [] [])).hostAppend 0x0A#8) = some (0x000A#16, 0x3001#16, 0x0000#16) ∧
    (outAfter ((after (start 0xF023#16 [] [])).hostAppend 0x0A#8)).map (fun p => (p.1.drop 19, p.2)) =
      some ([0x0A#8], .running) := by decide
/-- T16. -/
theorem test_putsp : outAfter (start 0xF024#16 [(0, 0x4000#16)] [(0x4000#16, 0x6548#16), (0x4001#16, 0x0079#16)]) =
    some ([0x48#8, 0x65#8, 0x79#8], .running) := by decide
/-- T17: a zero low byte is written. -/
theorem test_putsp_zero_low : outAfter (start 0xF024#16 [(0, 0x4000#16)] [(0x4000#16, 0x4100#16), (0x4001#16, 0x4242#16)]) =
    some ([0x00#8, 0x41#8, 0x42#8, 0x42#8], .running) := by decide
/-- T20. -/
theorem test_halt : outAfter (start 0xFF25#16 [] []) =
    some ([0x48#8, 0x41#8, 0x4C#8, 0x54#8, 0x0A#8], .stopped .halt) := by decide
/-- T21, T23: an unknown vector does nothing but the increment. -/
theorem test_trap_unknown :
    step ((start 0xF026#16 [] []).setKbq [0x41#8]) = .next (((start 0xF026#16 [] []).setKbq [0x41#8]).setPc 0x3001#16) :=
  eq_next_of_nextOf (by decide)
/-- I2. -/
theorem test_rti : outAfter (start 0x8FFF#16 [] []) = some ([], .stopped .illegalRti) := by decide
/-- I4. -/
theorem test_res : outAfter (start 0xDABC#16 [] []) = some ([], .stopped .illegalRes) := by decide

/-! ### The cycle and the gate (95_test_vectors.md section 2.7) -/

/-- Y1: the message is a free value, whatever it is it is what `out` gains, and the HALT at 0xFFFF is not run. -/
theorem test_pc_overflow : ∃ t, step (startAt 0xFFFF#16 0xF025#16 [] []) = .next t ∧ t.out = Config.pcOverflowMsg ∧
    t.pc = 0xFFFF#16 ∧ t.run = .stopped .pcOverflow := ⟨_, rfl, rfl, rfl, rfl⟩
/-- Y3. -/
theorem test_fetch_kbsr_empty : xAfter 0 (State.reset.setPc 0xFE00#16) = some (0x0000#16, 0xFE01#16, 0x0000#16) := by decide
/-- Y4. -/
theorem test_fetch_kbsr_byte :
    outAfter ((State.reset.setPc 0xFE00#16).setKbq [0x41#8]) = some ([], .stopped .illegalRti) ∧
    cellAfter 0xFE02#16 ((State.reset.setPc 0xFE00#16).setKbq [0x41#8]) = some (0x0041#16, []) := by decide
/-- A stopped machine has no step (60_exceptions.md rule R120). -/
theorem test_stopped : step (State.reset.setRun (.stopped .halt)) = .fault (.stopped .halt) := rfl

/-! ### The host's interface -/

theorem test_decodeTableWord : decodeTableWord 16 0xF025 = some .halt ∧ decodeTableWord 16 0xC1C0 = some .ret ∧
    decodeTableWord 32 0xF025 = none := by decide
theorem test_withFetchWord : outAfter (State.reset.withFetchWord 16 0xF025) =
    some ([0x48#8, 0x41#8, 0x4C#8, 0x54#8, 0x0A#8], .stopped .halt) := by decide
/-- Where `pc` cannot fetch a stored word, the word goes to 0x3000. -/
theorem test_withFetchWord_at_the_end :
    outAfter (((State.reset.setPc 0xFFFF#16).setRun (.stopped .halt)).withFetchWord 16 0x8000) =
      some ([], .stopped .illegalRti) := by decide
/-- Big-endian image bytes (70_reset_and_hazards.md rule R147), an odd byte count, and an empty file (log entry 20). -/
theorem test_parseImage : parseImage [0x30#8, 0x00#8, 0xF0#8, 0x25#8] = some (0x3000#16, [0xF025#16]) ∧
    parseImage [0x30#8, 0x00#8, 0xF0#8] = none ∧ parseImage [] = none := by decide
theorem test_loadImage_past_the_end : State.reset.loadImage 0xFFFF#16 [0x0001#16, 0x0002#16] = none := by decide

/-! ### Memory -/

/-- Both bytes of a word, and a word of zeros is not listed. -/
theorem test_memory_canonical :
    (State.reset.setCell 0x0001#16 0xAB00#16).mem = [(2, 0xAB#8)] ∧
    ((State.reset.setCell 0x0001#16 0xABCD#16).setCell 0x0001#16 0x0000#16).mem = [] := by decide
theorem test_reset_memory_wf : State.reset.mem.wf := Memory.wf_nil

/-! ### The hypotheses of the statements can be met -/

theorem witness_DecodeOfEncodeIsTheInstruction : (Instr.jmp 6).wellFormed = true ∧ (Instr.trap 0x1F#8).wellFormed = true ∧
    (Instr.trap 0x26#8).wellFormed = true ∧ (Instr.str 7 0 0x3F#6).wellFormed = true := by decide

/-- Words that differ in an ignored bit only, and words that differ in a bit that is not ignored. -/
theorem witness_ExactlyTheIgnoredBitsAreIgnored :
    0xCEBF#16 &&& ~~~(ignoredBits (decode 0xC080#16)) = 0xC080#16 &&& ~~~(ignoredBits (decode 0xC080#16)) ∧
    decode 0xCEBF#16 = decode 0xC080#16 ∧ decode 0xC0C0#16 ≠ decode 0xC080#16 := by decide

/-- The clauses that share an opcode, and the vectors next to 0x20 and 0x25. -/
theorem witness_FieldsAreReadWhereTheSpecPutsThem :
    ((0x1042#16).extractLsb' 12 4 = 0x1#4 ∧ (0x1042#16).getLsbD 5 = false ∧ (0x1062#16).getLsbD 5 = true) ∧
    ((0x4FFF#16).extractLsb' 12 4 = 0x4#4 ∧ (0x4FFF#16).getLsbD 11 = true ∧ (0x41C0#16).getLsbD 11 = false) ∧
    ((0xC180#16).extractLsb' 12 4 = 0xC#4 ∧ (0xC180#16).extractLsb' 6 3 ≠ 7#3 ∧ (0xC1C0#16).extractLsb' 6 3 = 7#3) ∧
    ((0xF01F#16).extractLsb' 12 4 = 0xF#4 ∧ (0xF01F#16).extractLsb' 0 8 < 0x20#8 ∧ 0x25#8 < (0xF026#16).extractLsb' 0 8 ∧
      (0xF020#16).extractLsb' 0 8 = 0x20#8 ∧ (0xF025#16).extractLsb' 0 8 = 0x25#8) := by decide

/-- At KBSR, at an ordinary address, and at the last one a fetch reads. -/
theorem witness_StepRunsTheDecodedInstruction :
    (∃ s : State, s.run = .running ∧ s.pc = 0xFE00#16 ∧ decode (s.memRead s.pc).1 = .rti) ∧
    (∃ s : State, s.run = .running ∧ s.pc ≠ 0xFFFF#16 ∧ s.pc ≠ 0xFE00#16 ∧ decode (s.cell s.pc) = .addReg 0 1 2) ∧
    (∃ s : State, s.run = .running ∧ s.pc = 0xFFFE#16 ∧ decode (s.cell s.pc) = .halt) :=
  ⟨⟨(State.reset.setPc 0xFE00#16).setKbq [0x41#8], by decide⟩, ⟨start 0x1042#16 [] [], by decide⟩, ⟨startAt 0xFFFE#16 0xF025#16 [] [], by decide⟩⟩

theorem witness_FetchAtKbsrPollsTheKeyboard :
    (∃ s : State, s.run = .running ∧ s.pc = 0xFE00#16 ∧ s.kbq = []) ∧
    (∃ s : State, s.run = .running ∧ s.pc = 0xFE00#16 ∧ s.kbq = 0x41#8 :: [0x42#8]) :=
  ⟨⟨State.reset.setPc 0xFE00#16, by decide⟩, ⟨(State.reset.setPc 0xFE00#16).setKbq [0x41#8, 0x42#8], by decide⟩⟩

theorem witness_PcOverflowStopsWithoutFetching : ∃ s : State, s.run = .running ∧ s.pc = 0xFFFF#16 ∧ s.cell s.pc = 0xF025#16 :=
  ⟨startAt 0xFFFF#16 0xF025#16 [] [], by decide⟩

theorem witness_StoppedMachineHasNoStep : ∃ s : State, s.run = .stopped .illegalRes :=
  ⟨State.reset.setRun (.stopped .illegalRes), rfl⟩

theorem witness_BlockedReadHolds :
    (∃ s : State, s.run = .waitGetc ∧ s.kbq = []) ∧ (∃ s : State, s.run = .waitIn ∧ s.kbq = []) :=
  ⟨⟨after (start 0xF020#16 [] []), by decide⟩, ⟨after (start 0xF023#16 [] []), by decide⟩⟩

theorem witness_HeldReadEndsAsIfTheByteHadBeenThere :
    State.reset.run = .running ∧ State.reset.kbq = [] ∧ [0x41#8] ≠ [] ∧ [0x41#8, 0x42#8] ≠ [] := by decide

/-- Both waits, with one byte and with two. -/
theorem witness_BlockedReadEndsWithTheHeadByte :
    (∃ s : State, s.kbq = 0x41#8 :: [] ∧ s.run = .waitGetc) ∧ (∃ s : State, s.kbq = 0xFF#8 :: [0x42#8] ∧ s.run = .waitIn) :=
  ⟨⟨(after (start 0xF020#16 [] [])).hostAppend 0x41#8, by decide⟩,
    ⟨((after (start 0xF023#16 [] [])).hostAppend 0xFF#8).hostAppend 0x42#8, by decide⟩⟩

/-- The three clauses of the gate, and the two neighbours of KBSR. -/
theorem witness_GatedReadPollsOnlyKbsr :
    (0xFDFF#16 ≠ 0xFE00#16 ∧ 0xFE01#16 ≠ 0xFE00#16) ∧
    (∃ s : State, s.kbq = [] ∧ (s.memRead 0xFE00#16).1 = 0x0000#16 ∧ s.cell 0xFE00#16 = 0x0055#16) ∧
    (∃ s : State, s.kbq = 0xFF#8 :: [] ∧ (s.memRead 0xFE00#16).1 = 0x8000#16 ∧
      (s.memRead 0xFE00#16).2.cell 0xFE02#16 = 0x00FF#16) :=
  ⟨by decide, ⟨State.reset.setCell 0xFE00#16 0x0055#16, by decide⟩, ⟨State.reset.setKbq [0xFF#8], by decide⟩⟩

/-- A store next to KBSR is read back, one to KBSR is not. -/
theorem witness_StoreReplacesOneWordAndNothingElse :
    0xFE01#16 ≠ 0xFE00#16 ∧ ((State.reset.memWrite 0xFE01#16 0xABCD#16).memRead 0xFE01#16).1 = 0xABCD#16 ∧
    ((State.reset.memWrite 0xFE00#16 0xABCD#16).memRead 0xFE00#16).1 = 0x0000#16 := by decide

/-- STI then LDI through a pointer word, ST then LDR, and STR at the neighbour of KBSR then LD at another `pc`. -/
theorem witness_StoreThenLoadReturnsTheValue :
    (IsStoreOf (.sti 1 1#9) 1 ∧ IsLoadInto (.ldi 2 1#9) 2 ∧ 0x5000#16 ≠ 0xFE00#16 ∧
      storeAddr (.sti 1 1#9) (State.reset.setCell 0x3001#16 0x5000#16) = some 0x5000#16 ∧
      ∃ t, exec (.sti 1 1#9) (State.reset.setCell 0x3001#16 0x5000#16) = .next t ∧
        loadAddr (.ldi 2 1#9) (t.setPc 0x3000#16) = some 0x5000#16) ∧
    (IsStoreOf (.st 1 0#9) 1 ∧ IsLoadInto (.ldr 2 3 0#6) 2 ∧
      storeAddr (.st 1 0#9) (State.reset.setX 3 0x3000#16) = some 0x3000#16 ∧
      ∃ t, exec (.st 1 0#9) (State.reset.setX 3 0x3000#16) = .next t ∧
        loadAddr (.ldr 2 3 0#6) (t.setPc 0x3001#16) = some 0x3000#16) ∧
    (IsStoreOf (.str 1 3 1#6) 1 ∧ IsLoadInto (.ld 2 0x1FF#9) 2 ∧ 0xFE01#16 ≠ 0xFE00#16 ∧
      storeAddr (.str 1 3 1#6) (State.reset.setX 3 0xFE00#16) = some 0xFE01#16 ∧
      ∃ t, exec (.str 1 3 1#6) (State.reset.setX 3 0xFE00#16) = .next t ∧
        loadAddr (.ld 2 0x1FF#9) (t.setPc 0xFE02#16) = some 0xFE01#16) :=
  ⟨⟨.inr (.inl ⟨_, rfl⟩), .inr (.inl ⟨_, rfl⟩), by decide, by decide, _, rfl, by decide⟩,
    ⟨.inl ⟨_, rfl⟩, .inr (.inr ⟨_, _, rfl⟩), by decide, _, rfl, by decide⟩,
    ⟨.inr (.inr ⟨_, _, rfl⟩), .inl ⟨_, rfl⟩, by decide, by decide, _, rfl, by decide⟩⟩

/-- Each of the three stores, onto the next instruction. -/
theorem witness_StoreIsSeenByTheNextFetch :
    (∃ s : State, s.run = .running ∧ s.pc ≠ 0xFFFF#16 ∧ s.pc ≠ 0xFE00#16 ∧ storeAddr (.st 1 0#9) s = some s.pc) ∧
    (∃ s : State, s.run = .running ∧ s.pc ≠ 0xFFFF#16 ∧ s.pc ≠ 0xFE00#16 ∧ storeAddr (.sti 1 1#9) s = some s.pc) ∧
    (∃ s : State, s.run = .running ∧ s.pc ≠ 0xFFFF#16 ∧ s.pc ≠ 0xFE00#16 ∧ storeAddr (.str 1 2 0#6) s = some s.pc) :=
  ⟨⟨State.reset, by decide⟩, ⟨State.reset.setCell 0x3001#16 0x3000#16, by decide⟩, ⟨State.reset.setX 2 0x3000#16, by decide⟩⟩

/-- Taken on each flag alone, and not taken with no flag or another flag. -/
theorem witness_BranchIsTakenOnASelectedFlag :
    ((State.reset.setCond 0x0004#16).cond.getLsbD 2 = true) ∧ ((State.reset.setCond 0x0002#16).cond.getLsbD 1 = true) ∧
    ((State.reset.setCond 0x0001#16).cond.getLsbD 0 = true) ∧
    ¬ (true = true ∧ State.reset.cond.getLsbD 2 = true) ∧ ¬ (true = true ∧ (State.reset.setCond 0x0002#16).cond.getLsbD 2 = true) := by
  decide

theorem witness_JsrrLinksThenReadsItsTarget : (6 : Reg) ≠ 7 ∧ (7 : Reg) = 7 := by decide

/-- Both ends of both ranges of unknown vectors. -/
theorem witness_TrapDispatchesOnItsVector :
    (0x00#8 < 0x20#8 ∧ 0x1F#8 < 0x20#8) ∧ (0x25#8 < 0x26#8 ∧ 0x25#8 < 0xFF#8) := by decide

theorem witness_queue_empty_and_not : State.reset.kbq = [] ∧ (State.reset.setKbq [0x00#8]).kbq = 0x00#8 :: [] := by decide

theorem witness_StringRoutineIsTheSpecsLoop :
    (State.reset.memRead 0x4000#16).1 = 0x0000#16 ∧ ((State.reset.setCell 0x4000#16 0x4100#16).memRead 0x4000#16).1 ≠ 0x0000#16 := by
  decide

/-- A string of two words that runs over the end of memory (as T11 does). -/
def stringState : State := start 0xF022#16 [(0, 0xFFFF#16)] [(0xFFFF#16, 0x0041#16), (0x0000#16, 0x0142#16)]

theorem witness_PutsWritesEachLowByte :
    (∀ w ∈ [0x0041#16, 0x0142#16], w ≠ 0x0000#16) ∧
    (∀ j (h : j < [0x0041#16, 0x0142#16].length),
      stringState.cell (stringState.getX 0 + BitVec.ofNat 16 j) = [0x0041#16, 0x0142#16][j]) ∧
    stringState.cell (stringState.getX 0 + BitVec.ofNat 16 [0x0041#16, 0x0142#16].length) = 0x0000#16 ∧
    (∀ j, j ≤ [0x0041#16, 0x0142#16].length → stringState.getX 0 + BitVec.ofNat 16 j ≠ 0xFE00#16) := by
  refine ⟨by simp, fun j h => ?_, by decide, fun j h => ?_⟩
  · obtain rfl | rfl : j = 0 ∨ j = 1 := by
      simp at h
      omega
    · exact (by decide : stringState.cell (stringState.getX 0 + BitVec.ofNat 16 0) = 0x0041#16)
    · exact (by decide : stringState.cell (stringState.getX 0 + BitVec.ofNat 16 1) = 0x0142#16)
  · obtain rfl | rfl | rfl : j = 0 ∨ j = 1 ∨ j = 2 := by
      simp at h
      omega
    · decide
    · decide
    · decide

/-- Each routine answers a next state, R0 taken and not. -/
theorem witness_TrapsKeepFlagsPcAndLink :
    (∃ t, exec .getc (State.reset.setKbq [0x41#8]) = .next t ∧ t.getX 0 = 0x0041#16) ∧
    (∃ t, exec (.trap 0x23#8) (State.reset.setKbq [0x41#8]) = .next t ∧ t.getX 0 = 0x0041#16) ∧
    (∃ t, exec .puts ((State.reset.setX 0 0xFE00#16).setKbq [0x41#8]) = .next t ∧ t.kbq = []) ∧
    (∃ t, exec .out State.reset = .next t ∧ t.out = [0x00#8]) ∧ (∃ t, exec (.trap 0x1F#8) State.reset = .next t) :=
  ⟨⟨_, rfl, by decide⟩, ⟨_, rfl, by decide⟩, ⟨_, rfl, by decide⟩, ⟨_, rfl, by decide⟩, ⟨_, rfl⟩⟩

/-- A step that writes `cond` and one that does not, each from a running state that can fetch. -/
theorem witness_ExactlySevenInstructionsSetTheFlags :
    flagDest (.lea 5 0#9) = some 5 ∧ flagDest (.jsr 0#11) = none ∧
    (∃ t, exec (.lea 5 0#9) State.reset = .next t) ∧ (∃ t, exec (.jsr 0#11) State.reset = .next t) ∧
    step (start 0xEA00#16 [] []) = .next (after (start 0xEA00#16 [] [])) ∧
    (after (start 0xEA00#16 [] [])).cond ≠ (start 0xEA00#16 [] []).cond :=
  ⟨rfl, rfl, ⟨_, rfl⟩, ⟨_, rfl⟩, step_after (by decide), by decide⟩

theorem witness_OnlyTheWrittenRegisterChanges :
    (∃ t, exec (.jsr 0#11) State.reset = .next t ∧ writtenReg (.jsr 0#11) ≠ some 6 ∧ t.getX 7 ≠ State.reset.getX 7) ∧
    (∃ t, exec (.trap 0x21#8) State.reset = .next t ∧ writtenReg (.trap 0x21#8) ≠ some 0) :=
  ⟨⟨_, rfl, by decide, by decide⟩, ⟨_, rfl, by decide⟩⟩

theorem witness_OnlyControlTransfersChangePc :
    (∃ t, exec (.st 0 0#9) State.reset = .next t ∧ writesPc (.st 0 0#9) = false) ∧
    (∃ s t : State, s.run = .running ∧ s.pc ≠ 0xFFFF#16 ∧ step s = .next t ∧ writesPc (decode (s.memRead s.pc).1) = false) :=
  ⟨⟨_, rfl, rfl⟩, ⟨start 0x3200#16 [] [], after (start 0x3200#16 [] []), by decide, by decide, step_after (by decide), by decide⟩⟩

/-- A byte outside the stored cell, KBSR and KBDR; and one of KBDR where no byte is taken. -/
theorem witness_OnlyStoresAndPollsChangeMemory :
    (∃ t, exec (.st 0 0#9) State.reset = .next t ∧ storeAddr (.st 0 0#9) State.reset = some 0x3000#16 ∧
      outside 0x6002 0x3000#16 ∧ outside 0x6002 0xFE00#16 ∧ outside 0x6002 0xFE02#16) ∧
    (∃ t, exec (.ld 0 0#9) (State.reset.setPc 0xFE00#16) = .next t ∧ storeAddr (.ld 0 0#9) (State.reset.setPc 0xFE00#16) = none ∧
      outside 0x1FC05 0xFE00#16 ∧ ¬ outside 0x1FC05 0xFE02#16 ∧ t.kbq = (State.reset.setPc 0xFE00#16).kbq) :=
  ⟨⟨_, rfl, by decide⟩, ⟨_, rfl, by decide⟩⟩

/-- A running step that takes no byte and stores elsewhere, with KBDR not 0. -/
theorem witness_PolledByteStaysInKbdr :
    (State.reset.setKbq [0x41#8]).kbq = 0x41#8 :: [] ∧
    ∃ s t : State, step s = .next t ∧ t.kbq = s.kbq ∧ s.run = .running ∧ s.pc ≠ 0xFFFF#16 ∧
      storeAddr (decode s.fetch.1) s.fetch.2 = some 0x3001#16 ∧ s.cell 0xFE02#16 = 0x0041#16 :=
  ⟨rfl, start 0x3200#16 [] [(0xFE02#16, 0x0041#16)], after (start 0x3200#16 [] [(0xFE02#16, 0x0041#16)]), step_after (by decide),
    by decide, by decide, by decide, by decide, by decide⟩

theorem witness_ChannelsAreStreams : ∃ s t : State, step s = .next t ∧ t.kbq ≠ s.kbq ∧ t.out ≠ s.out :=
  ⟨(start 0xF023#16 [] []).setKbq [0x7A#8], after ((start 0xF023#16 [] []).setKbq [0x7A#8]), step_after (by decide), by decide,
    by decide⟩

/-- A running state for each of the four causes (the overflow: `test_pc_overflow`), and one that goes on. -/
theorem witness_EachStopHasItsCause :
    (∃ s t : State, s.run = .running ∧ step s = .next t ∧ t.run = .stopped .illegalRti) ∧
    (∃ s t : State, s.run = .running ∧ step s = .next t ∧ t.run = .stopped .illegalRes) ∧
    (∃ s t : State, s.run = .running ∧ step s = .next t ∧ t.run = .stopped .halt) ∧
    (∃ s t : State, s.run = .running ∧ step s = .next t ∧ t.run = .stopped .pcOverflow) ∧
    (∃ s t : State, s.run = .running ∧ step s = .next t ∧ t.run = .running) :=
  ⟨⟨start 0x8000#16 [] [], after (start 0x8000#16 [] []), by decide, step_after (by decide), by decide⟩,
    ⟨start 0xD000#16 [] [], after (start 0xD000#16 [] []), by decide, step_after (by decide), by decide⟩,
    ⟨start 0xF025#16 [] [], after (start 0xF025#16 [] []), by decide, step_after (by decide), by decide⟩,
    ⟨startAt 0xFFFF#16 0xF025#16 [] [], _, rfl, rfl, rfl⟩,
    ⟨start 0x1042#16 [] [], after (start 0x1042#16 [] []), by decide, step_after (by decide), by decide⟩⟩

/-- A stop whose own fetch polled (Y4). -/
theorem witness_StopsArePrecise : ∃ s t : State, s.run = .running ∧ step s = .next t ∧ t.run = .stopped .illegalRti ∧
    t.kbq ≠ s.kbq :=
  ⟨(State.reset.setPc 0xFE00#16).setKbq [0x41#8], after ((State.reset.setPc 0xFE00#16).setKbq [0x41#8]), by decide,
    step_after (by decide), by decide, by decide⟩

/-- A state other than reset that has the invariant, with a legal flag, and steps. -/
theorem witness_StepKeepsTheInvariant : ∃ s t : State, s.Inv ∧ s.cond = 0x0004#16 ∧ step s = .next t ∧ t.out ≠ s.out := by
  refine ⟨(start 0xF025#16 [] []).setCond 0x0004#16, after ((start 0xF025#16 [] []).setCond 0x0004#16), ?_,
    rfl, step_after (by decide), by decide⟩
  exact ⟨by decide, .inr (.inr (.inr rfl)), by decide, by decide, fun h => absurd h (by decide), by decide, by decide⟩

theorem witness_ReachableStatesHaveTheInvariant : ∃ s : State, Reachable s ∧ s.cell 0x3000#16 = 0xF025#16 :=
  ⟨_, .start State.reset [(0x3000#16, [0xF025#16])] _ rfl, by decide⟩

theorem witness_FlagsOnceSetStaySet : ∃ s t : State, s.cond = 0x0002#16 ∧ step s = .next t ∧ t.cond = 0x0001#16 :=
  ⟨(start 0xE000#16 [] []).setCond 0x0002#16, after ((start 0xE000#16 [] []).setCond 0x0002#16), rfl,
    step_after (by decide), by decide⟩

/-- The last cell, and all of memory from 0. -/
theorem witness_LoadedImageStandsInMemory :
    (0xFFFF#16).toNat + [0xF025#16].length ≤ 65536 ∧ (0x0000#16).toNat + 65536 ≤ 65536 := by decide

/-- Two images that overlap at 0x3001: the cell they share, and one the later image does not cover. -/
theorem witness_LaterImagesOverwriteEarlierOnes :
    (0x3000#16).toNat + [0x1111#16, 0x2222#16].length ≤ 65536 ∧ (0x3001#16).toNat + [0x3333#16].length ≤ 65536 ∧
    Uncovered (0x3001#16, [0x3333#16]) 0x3000#16 ∧ ¬ Uncovered (0x3001#16, [0x3333#16]) 0x3001#16 ∧
    (State.reset.loadImages [(0x3000#16, [0x1111#16, 0x2222#16]), (0x3001#16, [0x3333#16])]).map
      (fun t => (t.cell 0x3000#16, t.cell 0x3001#16)) = some (0x1111#16, 0x3333#16) := by
  refine ⟨by decide, by decide, fun j hj => ?_, fun h => h 0 (by decide) (by decide), by decide⟩
  obtain rfl : j = 0 := by simpa using hj
  decide

end Sys2Proof.Tests
end

section
/-! PROOFS. Sign extension (00_scope.md rule R3) and `setcc` (rule R5). -/

namespace Sys2Proof.Proofs

open Sys2Proof.Machine Sys2Proof.Claims

/-! ### Sign extension -/

/-- Bit `i` of a sign-extended field: the field's own bit below its width, its top bit above (00_scope.md rule R3). -/
theorem sext_getElem {n : Nat} (v : BitVec n) {i : Nat} (hi : i < 16) :
    (sext v)[i] = if i < n then v.getLsbD i else v.msb := by
  rw [sext, BitVec.getElem_signExtend]
  split <;> simp [*]

/-- The mask `0xFFFF << n` has exactly the bits from `n` upwards. -/
theorem highMask_getElem (n : Nat) {i : Nat} (hi : i < 16) : (0xFFFF#16 <<< n)[i] = decide (n ≤ i) := by
  rw [show 0xFFFF#16 = BitVec.allOnes 16 from rfl, BitVec.getElem_shiftLeft, BitVec.getElem_allOnes, Bool.and_true,
    ← decide_not]
  exact decide_eq_decide.mpr Nat.not_lt

/-- A field whose top bit is 0 is extended with zeros. -/
theorem sext_of_msb_false {n : Nat} {v : BitVec n} (h : v.msb = false) : sext v = v.setWidth 16 :=
  BitVec.signExtend_eq_setWidth_of_msb_false h

/-- A field whose top bit is 1 is extended with ones, compared bit by bit below and above the field's width. -/
theorem sext_of_msb_true {n : Nat} {v : BitVec n} (h : v.msb = true) :
    sext v = v.setWidth 16 ||| (0xFFFF#16 <<< n) := by
  ext i hi
  rw [sext_getElem v hi, BitVec.getElem_or, highMask_getElem n hi, BitVec.getElem_setWidth]
  by_cases hin : i < n
  · simp [hin]
  · simp [hin, h, Nat.le_of_not_lt hin]

/-- Both cases of 00_scope.md rule R3 for a field of any positive width, by the bit `n` at its top. -/
theorem sext_eq_ite {n : Nat} (v : BitVec (n + 1)) :
    sext v = if v.getLsbD n then v.setWidth 16 ||| (0xFFFF#16 <<< (n + 1)) else v.setWidth 16 := by
  have htop : v.msb = v.getLsbD n := BitVec.msb_eq_getLsbD_last v
  split
  next h => exact sext_of_msb_true (htop.trans h)
  next h => exact sext_of_msb_false (htop.trans (Bool.eq_false_of_not_eq_true h))

/-- Settles O12: the four widths are instances of the rule for every width. -/
theorem signExtensionFollowsTheRule : Obligations.SignExtensionFollowsTheRule :=
  ⟨sext_eq_ite, sext_eq_ite, sext_eq_ite, sext_eq_ite⟩

/-! ### The condition register -/

theorem condOf_of_negative {v : Word} (h : v.getLsbD 15 = true) : condOf v = 0x0004#16 :=
  if_pos h

@[simp] theorem condOf_zero : condOf 0x0000#16 = 0x0002#16 := rfl

theorem condOf_of_positive {v : Word} (hsign : v.getLsbD 15 = false) (hne : v ≠ 0x0000#16) :
    condOf v = 0x0001#16 :=
  (if_neg (Bool.eq_false_iff.mp hsign)).trans (if_neg hne)

/-- The model's flag function meets 00_scope.md rule R5 as the claims write it out. -/
theorem flagsFrom_condOf (v : Word) : FlagsFrom v (condOf v) :=
  ⟨condOf_of_negative, fun hzero => hzero ▸ condOf_zero, condOf_of_positive⟩

@[simp] theorem setcc_cond (s : State) (i : Reg) : (s.setcc i).cond = condOf (s.getX i) := rfl

/-- Settles O13: `setcc` is the write of `condOf` of the register to `cond`. -/
theorem setccSetsExactlyOneFlag : Obligations.SetccSetsExactlyOneFlag := by
  intro s i
  rw [setcc_cond]
  exact ⟨flagsFrom_condOf (s.getX i), condOf_cases (s.getX i), rfl⟩

end Sys2Proof.Proofs
end

section
/-! PROOFS. The gated read (20_memory.md rules R31, R33, R34) and the store (rules R36, R37). -/

namespace Sys2Proof.Proofs

open Sys2Proof.Machine Sys2Proof.Claims

/-! ### One cell written -/

@[simp] theorem setCell_cell_same (s : State) (a v : Word) : (s.setCell a v).cell a = v := by
  rw [State.setCell_cell, if_pos rfl]

theorem setCell_cell_of_ne (s : State) {a c : Word} (v : Word) (h : c ≠ a) : (s.setCell a v).cell c = s.cell c := by
  rw [State.setCell_cell, if_neg h]

theorem setCell_readByte_of_outside (s : State) {a : Word} (v : Word) {k : Nat} (h : outside k a) :
    (s.setCell a v).mem.readByte k = s.mem.readByte k := by
  obtain ⟨hhigh, hlow⟩ := h
  rw [State.setCell_readByte, if_neg hlow, if_neg hhigh]

/-- A byte of the state after a write depends on the state before it only outside the cell. -/
theorem setCell_readByte_congr {s t : State} {a : Word} (v : Word) {k : Nat}
    (h : outside k a → t.mem.readByte k = s.mem.readByte k) :
    (t.setCell a v).mem.readByte k = (s.setCell a v).mem.readByte k := by
  rw [State.setCell_readByte, State.setCell_readByte]
  split
  · rfl
  next hlow =>
    split
    · rfl
    next hhigh => exact h ⟨hhigh, hlow⟩

theorem storedAt_setCell (s : State) (a v : Word) : StoredAt a v s (s.setCell a v) :=
  ⟨setCell_cell_same s a v, fun _ => setCell_readByte_of_outside s v⟩

theorem registersKept_setCell (s : State) (a v : Word) : RegistersKept s (s.setCell a v) :=
  ⟨fun _ => rfl, rfl⟩

/-! ### The gated read -/

theorem registersKept_gate (s : State) (a : Word) : RegistersKept s (s.gate a) :=
  ⟨s.gate_getX a, s.gate_cond a⟩

/-- The gated read meets 20_memory.md rules R31 and R33 as the claims write them out: one clause for each case of the gate. -/
theorem gatedReadGives_memRead (s : State) (a : Word) : GatedReadGives s a (s.memRead a).1 (s.memRead a).2 := by
  refine ⟨fun hne => ?_, fun hkbsr hempty => ?_, fun b q hkbsr hbyte => ?_⟩
  · rw [State.memRead_of_ne hne]
    exact ⟨rfl, rfl, rfl⟩
  · rw [show a = kbsrAddr from hkbsr, State.memRead_kbsr_empty hempty]
    exact ⟨rfl, setCell_cell_same s _ _, hempty, fun k => setCell_readByte_of_outside s _⟩
  · rw [show a = kbsrAddr from hkbsr, State.memRead_kbsr_byte hbyte]
    refine ⟨rfl, ?_, setCell_cell_same _ _ _, rfl, fun k hk hk' => ?_⟩
    · exact (setCell_cell_of_ne _ _ kbsrAddr_ne_kbdrAddr).trans (setCell_cell_same _ _ _)
    · exact (setCell_readByte_of_outside _ _ hk').trans (setCell_readByte_of_outside _ _ hk)

/-- Settles O15: a read is the gate's, which keeps everything but memory and the queue. -/
theorem gatedReadPollsOnlyKbsr : Obligations.GatedReadPollsOnlyKbsr := by
  intro s a
  exact ⟨gatedReadGives_memRead s a, registersKept_gate s a, s.gate_pc a, s.gate_run a, s.gate_out a⟩

/-- A read of KBDR is not gated (20_memory.md rule R34). -/
theorem memRead_kbdr (s : State) : s.memRead kbdrAddr = (s.cell kbdrAddr, s) :=
  State.memRead_of_ne kbsrAddr_ne_kbdrAddr.symm

/-- Settles O16: the read of KBDR leaves its own state, so a second read is the first. -/
theorem kbdrReadHasNoSideEffect : Obligations.KbdrReadHasNoSideEffect := by
  intro s
  have hread : s.memRead 0xFE02#16 = (s.cell 0xFE02#16, s) := memRead_kbdr s
  exact ⟨hread, by rw [hread, hread]⟩

/-! ### A store, then a read -/

/-- A stored word is read back at every address but KBSR, KBDR among them (20_memory.md rule R37). -/
theorem memRead_setCell_same (s : State) {a : Word} (v : Word) (h : a ≠ kbsrAddr) :
    (s.setCell a v).memRead a = (v, s.setCell a v) := by
  rw [State.memRead_of_ne h, setCell_cell_same]

/-- A read of KBSR gives the poll's answer, which only the queue decides (20_memory.md rule R33). -/
theorem memRead_kbsr_fst_congr {s t : State} (h : t.kbq = s.kbq) :
    (t.memRead kbsrAddr).1 = (s.memRead kbsrAddr).1 := by
  cases hq : s.kbq with
  | nil => rw [State.memRead_kbsr_empty hq, State.memRead_kbsr_empty (h.trans hq)]
  | cons b q => rw [State.memRead_kbsr_byte hq, State.memRead_kbsr_byte (h.trans hq)]

theorem kbPoll_kbq (s : State) : s.kbPoll.kbq = s.kbq.tail := by
  cases hq : s.kbq with
  | nil => simp [State.kbPoll_empty hq, hq]
  | cons b q => simp [State.kbPoll_byte hq]

/-- The poll writes KBSR whole, so no byte it leaves depends on what KBSR held before (20_memory.md rule R33). -/
theorem kbPoll_readByte_congr {s t : State} (hkbq : t.kbq = s.kbq) {k : Nat}
    (hmem : outside k kbsrAddr → t.mem.readByte k = s.mem.readByte k) :
    t.kbPoll.mem.readByte k = s.kbPoll.mem.readByte k := by
  cases hq : s.kbq with
  | nil =>
    rw [State.kbPoll_empty hq, State.kbPoll_empty (hkbq.trans hq)]
    exact setCell_readByte_congr _ hmem
  | cons b q =>
    rw [State.kbPoll_byte hq, State.kbPoll_byte (hkbq.trans hq)]
    exact setCell_readByte_congr _ fun _ => setCell_readByte_congr _ hmem

/-- Settles O17: a store is the write of one cell, and KBSR's is overwritten by the poll of the read that would see it. -/
theorem storeReplacesOneWordAndNothingElse : Obligations.StoreReplacesOneWordAndNothingElse := by
  intro s a v
  refine ⟨storedAt_setCell s a v, registersKept_setCell s a v, rfl, rfl, rfl, rfl, fun hne => ?_, ?_, ?_, fun k => ?_⟩
  · exact congrArg Prod.fst (memRead_setCell_same s v hne)
  · exact memRead_kbsr_fst_congr (State.setCell_kbq s kbsrAddr v)
  · exact (kbPoll_kbq (s.setCell kbsrAddr v)).trans (kbPoll_kbq s).symm
  · exact kbPoll_readByte_congr (State.setCell_kbq s kbsrAddr v) (setCell_readByte_of_outside s v)

end Sys2Proof.Proofs
end

section
/-! PROOFS. ADD, AND and NOT (40_alu.md rules R70 to R74). -/

namespace Sys2Proof.Proofs

open Sys2Proof.Machine Sys2Proof.Claims

/-! ### The write of a result and its flags -/

theorem setXcc_cond (s : State) (dr : Reg) (v : Word) : (s.setXcc dr v).cond = condOf v := by
  rw [State.setXcc_eq, State.setCond_cond]

/-- The common end of the flag-setting instructions: one register and the flags change, and no other field. -/
theorem destGets_setXcc (s : State) (dr : Reg) (v : Word) : DestGets dr v s (s.setXcc dr v) := by
  rw [State.setXcc_eq]
  refine ⟨?_, fun r hne => ?_, flagsFrom_condOf v, rfl, rfl, rfl⟩
  · rw [State.setCond_getX, State.setX_getX, if_pos rfl]
  · rw [State.setCond_getX, State.setX_getX, if_neg hne.symm]

theorem memoryAndQueueKept_setXcc (s : State) (dr : Reg) (v : Word) : MemoryAndQueueKept s (s.setXcc dr v) :=
  ⟨rfl, rfl⟩

/-- An instruction whose whole meaning is the write of `v` and its flags does what the claims of 40_alu.md ask. -/
theorem exists_destGets_of_exec_eq {i : Instr} {s : State} {dr : Reg} {v : Word}
    (h : exec i s = .next (s.setXcc dr v)) :
    ∃ t, exec i s = .next t ∧ DestGets dr v s t ∧ MemoryAndQueueKept s t :=
  ⟨_, h, destGets_setXcc s dr v, memoryAndQueueKept_setXcc s dr v⟩

/-! ### The five instructions: the sources are read from the state before the write -/

@[simp] theorem exec_addReg (dr sr1 sr2 : Reg) (s : State) :
    exec (.addReg dr sr1 sr2) s = .next (s.setXcc dr (s.getX sr1 + s.getX sr2)) := rfl

@[simp] theorem exec_addImm (dr sr1 : Reg) (imm : BitVec 5) (s : State) :
    exec (.addImm dr sr1 imm) s = .next (s.setXcc dr (s.getX sr1 + sext imm)) := rfl

@[simp] theorem exec_andReg (dr sr1 sr2 : Reg) (s : State) :
    exec (.andReg dr sr1 sr2) s = .next (s.setXcc dr (s.getX sr1 &&& s.getX sr2)) := rfl

@[simp] theorem exec_andImm (dr sr1 : Reg) (imm : BitVec 5) (s : State) :
    exec (.andImm dr sr1 imm) s = .next (s.setXcc dr (s.getX sr1 &&& sext imm)) := rfl

@[simp] theorem exec_not (dr sr : Reg) (s : State) :
    exec (.not dr sr) s = .next (s.setXcc dr (~~~(s.getX sr))) := rfl

/-- Settles O18: both forms of ADD are the write of their sum. -/
theorem addWritesTheSumAndItsFlags : Obligations.AddWritesTheSumAndItsFlags := by
  intro s dr sr1 sr2 imm
  exact ⟨exists_destGets_of_exec_eq (exec_addReg dr sr1 sr2 s), exists_destGets_of_exec_eq (exec_addImm dr sr1 imm s)⟩

/-- Settles O19: both forms of AND are the write of their conjunction. -/
theorem andWritesTheConjunctionAndItsFlags : Obligations.AndWritesTheConjunctionAndItsFlags := by
  intro s dr sr1 sr2 imm
  exact ⟨exists_destGets_of_exec_eq (exec_andReg dr sr1 sr2 s), exists_destGets_of_exec_eq (exec_andImm dr sr1 imm s)⟩

/-! ### The sign flag of a complement -/

/-- NEG is the flag of no value but those with bit 15 set (00_scope.md rule R5). -/
theorem condOf_eq_negative_iff (v : Word) : condOf v = 0x0004#16 ↔ v.getLsbD 15 = true := by
  refine ⟨fun hneg => ?_, condOf_of_negative⟩
  by_contra hsign
  rw [Bool.not_eq_true] at hsign
  by_cases hzero : v = 0x0000#16
  · rw [hzero, condOf_zero] at hneg
    exact absurd hneg (by decide)
  · rw [condOf_of_positive hsign hzero] at hneg
    exact absurd hneg (by decide)

/-- A complement is negative exactly when bit 15 of its source was 0 (40_alu.md rule R74). -/
theorem condOf_not_eq_negative_iff (v : Word) : condOf (~~~v) = 0x0004#16 ↔ v.getLsbD 15 = false := by
  rw [condOf_eq_negative_iff, BitVec.getLsbD_not]
  simp

/-- Settles O20: NOT is the write of the complement, and its NEG is the complement's bit 15. -/
theorem notInvertsEveryBit : Obligations.NotInvertsEveryBit := by
  intro s dr sr
  refine ⟨_, exec_not dr sr s, destGets_setXcc s dr _, memoryAndQueueKept_setXcc s dr _, ?_⟩
  rw [setXcc_cond]
  exact condOf_not_eq_negative_iff (s.getX sr)

end Sys2Proof.Proofs
end

section
/-! PROOFS. Loads and stores (41_load_store.md rules R80 to R86). -/

namespace Sys2Proof.Proofs

open Sys2Proof.Machine Sys2Proof.Claims

/-! ### What the seven instructions answer -/

@[simp] theorem exec_ld (dr : Reg) (off : BitVec 9) (s : State) :
    exec (.ld dr off) s = .next (s.loadFrom dr (s.pc + sext off)) := rfl

@[simp] theorem exec_ldr (dr baseR : Reg) (off : BitVec 6) (s : State) :
    exec (.ldr dr baseR off) s = .next (s.loadFrom dr (s.getX baseR + sext off)) := rfl

@[simp] theorem exec_ldi (dr : Reg) (off : BitVec 9) (s : State) :
    exec (.ldi dr off) s =
      .next ((s.gate (s.pc + sext off)).loadFrom dr ((s.gate (s.pc + sext off)).cell (s.pc + sext off))) := rfl

@[simp] theorem exec_lea (dr : Reg) (off : BitVec 9) (s : State) :
    exec (.lea dr off) s = .next (s.setXcc dr (s.pc + sext off)) := rfl

@[simp] theorem exec_st (sr : Reg) (off : BitVec 9) (s : State) :
    exec (.st sr off) s = .next (s.setCell (s.pc + sext off) (s.getX sr)) := rfl

@[simp] theorem exec_str (sr baseR : Reg) (off : BitVec 6) (s : State) :
    exec (.str sr baseR off) s = .next (s.setCell (s.getX baseR + sext off) (s.getX sr)) := rfl

/-- The pointer read of STI may write memory and the queue, but not the register it stores (20_memory.md rule R33). -/
@[simp] theorem exec_sti (sr : Reg) (off : BitVec 9) (s : State) :
    exec (.sti sr off) s =
      .next ((s.gate (s.pc + sext off)).setCell ((s.gate (s.pc + sext off)).cell (s.pc + sext off)) (s.getX sr)) := by
  rw [← s.gate_getX (s.pc + sext off) sr]
  rfl

/-! ### Loads -/

/-- What a gated read leaves is said of memory and the queue alone, so a later write of registers and flags keeps it. -/
theorem gatedReadGives_of_memoryAndQueueKept {s t u : State} {a w : Word} (h : GatedReadGives s a w t)
    (hkept : MemoryAndQueueKept t u) : GatedReadGives s a w u := by
  obtain ⟨hmem, hkbq⟩ := hkept
  simpa only [GatedReadGives, MemoryAndQueueKept, State.cell, hmem, hkbq] using h

/-- The gate touches none of what a flag-setting instruction's claim compares, so it may be counted as part of the
instruction. -/
theorem destGets_gate_iff {s t : State} {a v : Word} {dr : Reg} : DestGets dr v (s.gate a) t ↔ DestGets dr v s t := by
  simp only [DestGets, State.gate_getX, State.gate_pc, State.gate_out, State.gate_run]

theorem gatedReadGives_loadFrom (s : State) (dr : Reg) (a : Word) :
    GatedReadGives s a (s.memRead a).1 (s.loadFrom dr a) :=
  gatedReadGives_of_memoryAndQueueKept (gatedReadGives_memRead s a) (memoryAndQueueKept_setXcc _ dr _)

theorem destGets_loadFrom (s : State) (dr : Reg) (a : Word) : DestGets dr (s.memRead a).1 s (s.loadFrom dr a) :=
  destGets_gate_iff.mp (destGets_setXcc (s.gate a) dr _)

/-- An instruction whose whole meaning is a load does what the claim of LD and LDR asks. -/
theorem exists_load_of_exec_eq {i : Instr} {s : State} {dr : Reg} {a : Word}
    (h : exec i s = .next (s.loadFrom dr a)) :
    ∃ w t, exec i s = .next t ∧ GatedReadGives s a w t ∧ DestGets dr w s t :=
  ⟨_, _, h, gatedReadGives_loadFrom s dr a, destGets_loadFrom s dr a⟩

/-- Settles O22: LD and LDR are the load from their effective address. -/
theorem loadsReadThroughTheGate : Obligations.LoadsReadThroughTheGate := by
  intro s dr baseR off9 off6
  exact ⟨exists_load_of_exec_eq (exec_ld dr off9 s), exists_load_of_exec_eq (exec_ldr dr baseR off6 s)⟩

/-- The poll answers 0x0000 or 0x8000, so a pointer read from KBSR never points at KBSR (20_memory.md rule R33). -/
theorem memRead_kbsr_fst_ne_kbsrAddr (s : State) : (s.memRead kbsrAddr).1 ≠ kbsrAddr := by
  cases hq : s.kbq with
  | nil =>
    rw [State.memRead_kbsr_empty hq]
    exact show 0x0000#16 ≠ kbsrAddr by decide
  | cons b q =>
    rw [State.memRead_kbsr_byte hq]
    exact show kbReady ≠ kbsrAddr by decide

/-- Settles O23: LDI is a load, through the pointer, from the state that the pointer's gated read left. -/
theorem ldiReadsThePointerThenTheData : Obligations.LdiReadsThePointerThenTheData := by
  intro s dr off
  refine ⟨_, _, _, _, exec_ldi dr off s, gatedReadGives_memRead s _, gatedReadGives_loadFrom _ dr _,
    destGets_gate_iff.mp (destGets_loadFrom _ dr _), fun ⟨haddr, hptr⟩ => ?_⟩
  rw [haddr] at hptr
  exact memRead_kbsr_fst_ne_kbsrAddr s hptr

/-- Settles O24: LEA is the write of the address and its flags, with no read. -/
theorem leaWritesTheAddressAndItsFlags : Obligations.LeaWritesTheAddressAndItsFlags := by
  intro s dr off
  exact exists_destGets_of_exec_eq (exec_lea dr off s)

/-! ### Stores -/

/-- An instruction whose whole meaning is the write of one cell does what the claim of ST and STR asks. -/
theorem exists_store_of_exec_eq {i : Instr} {s : State} {a v : Word} (h : exec i s = .next (s.setCell a v)) :
    ∃ t, exec i s = .next t ∧ StoredAt a v s t ∧ RegistersKept s t ∧
      t.pc = s.pc ∧ t.kbq = s.kbq ∧ t.out = s.out ∧ t.run = s.run :=
  ⟨_, h, storedAt_setCell s a v, registersKept_setCell s a v, rfl, rfl, rfl, rfl⟩

/-- Settles O25: ST and STR are the write of the cell at their effective address. -/
theorem storesWriteOneWordOfMemory : Obligations.StoresWriteOneWordOfMemory := by
  intro s sr baseR off9 off6
  exact ⟨exists_store_of_exec_eq (exec_st sr off9 s), exists_store_of_exec_eq (exec_str sr baseR off6 s)⟩

theorem registersKept_trans {s t u : State} (hst : RegistersKept s t) (htu : RegistersKept t u) : RegistersKept s u :=
  ⟨fun r => (htu.1 r).trans (hst.1 r), htu.2.trans hst.2⟩

/-- Settles O26: STI is the write of one cell, through the pointer, in the state that the pointer's gated read left. -/
theorem stiStoresThroughThePointer : Obligations.StiStoresThroughThePointer := by
  intro s sr off
  exact ⟨_, _, _, exec_sti sr off s, gatedReadGives_memRead s _, storedAt_setCell _ _ _,
    registersKept_trans (registersKept_gate s _) (registersKept_setCell _ _ _),
    s.gate_pc _, rfl, s.gate_out _, s.gate_run _⟩

end Sys2Proof.Proofs
end

section
/-! PROOFS. BR, JMP, RET and JSR (42_control.md rules R90 to R93). -/

namespace Sys2Proof.Proofs

open Sys2Proof.Machine Sys2Proof.Claims

/-! ### Transfers that write only `pc` -/

/-- A branch is taken exactly when it selects a flag that is set (42_control.md rule R90). -/
theorem branchTaken_iff {n z p : Bool} {cond : Word} :
    branchTaken n z p cond = true ↔
      (n = true ∧ cond.getLsbD 2 = true) ∨ (z = true ∧ cond.getLsbD 1 = true) ∨ (p = true ∧ cond.getLsbD 0 = true) := by
  simp only [branchTaken, Bool.or_eq_true, Bool.and_eq_true, or_assoc]

/-- A branch not taken is read as the write of the `pc` that stands, so that BR, like JMP, is always a write of `pc`. -/
@[simp] theorem exec_br (n z p : Bool) (off : BitVec 9) (s : State) :
    exec (.br n z p off) s = .next (s.setPc (if branchTaken n z p s.cond then s.pc + sext off else s.pc)) :=
  congrArg Host.Outcome.next (apply_ite s.setPc _ (s.pc + sext off) s.pc).symm

@[simp] theorem exec_jmp (baseR : Reg) (s : State) : exec (.jmp baseR) s = .next (s.setPc (s.getX baseR)) := rfl

@[simp] theorem exec_ret (s : State) : exec .ret s = .next (s.setPc (s.getX 7)) := rfl

theorem registersKept_setPc (s : State) (v : Word) : RegistersKept s (s.setPc v) :=
  ⟨s.setPc_getX v, s.setPc_cond v⟩

theorem memoryAndQueueKept_setPc (s : State) (v : Word) : MemoryAndQueueKept s (s.setPc v) :=
  ⟨s.setPc_mem v, s.setPc_kbq v⟩

/-- An instruction whose whole meaning is the write of `pc` changes nothing else. -/
theorem exists_pc_eq_of_exec_eq {i : Instr} {s : State} {v : Word} (h : exec i s = .next (s.setPc v)) :
    ∃ t, exec i s = .next t ∧ t.pc = v ∧ RegistersKept s t ∧ MemoryAndQueueKept s t ∧ t.out = s.out ∧ t.run = s.run :=
  ⟨_, h, s.setPc_pc v, registersKept_setPc s v, memoryAndQueueKept_setPc s v, s.setPc_out v, s.setPc_run v⟩

/-- Settles O29: BR is the write of the target or of the `pc` that stands, as its condition decides. -/
theorem branchIsTakenOnASelectedFlag : Obligations.BranchIsTakenOnASelectedFlag := by
  intro s n z p off
  obtain ⟨t, hexec, hpc, hregs, hmem, hout, hrun⟩ := exists_pc_eq_of_exec_eq (exec_br n z p off s)
  refine ⟨t, hexec, hregs, hmem, hout, hrun, fun htaken => ?_, fun hnot => ?_⟩
  · rw [hpc, if_pos (branchTaken_iff.mpr htaken)]
  · rw [hpc, if_neg (mt branchTaken_iff.mp hnot)]

/-- Settles O30: JMP and RET are the write of a register to `pc`. -/
theorem jumpsGoToTheRegister : Obligations.JumpsGoToTheRegister := by
  intro s baseR
  exact ⟨exists_pc_eq_of_exec_eq (exec_jmp baseR s), exists_pc_eq_of_exec_eq (exec_ret s)⟩

/-! ### The link -/

@[simp] theorem link_getX_seven (s : State) : s.link.getX 7 = s.pc := by
  rw [State.link, State.setX_getX, linkReg, if_pos rfl]

theorem link_getX_of_ne (s : State) {r : Reg} (h : r ≠ 7) : s.link.getX r = s.getX r := by
  rw [State.link, State.setX_getX, linkReg, if_neg h.symm]

theorem memoryAndQueueKept_link (s : State) : MemoryAndQueueKept s s.link :=
  ⟨s.setX_mem linkReg s.pc, s.setX_kbq linkReg s.pc⟩

/-- The target is from the incremented `pc`, which the link does not change (42_control.md rule R93). -/
@[simp] theorem exec_jsr (off : BitVec 11) (s : State) :
    exec (.jsr off) s = .next (s.link.setPc (s.pc + sext off)) := rfl

/-- Settles O31: JSR is the link, then the write of `pc`, which changes no register. -/
theorem jsrLinksAndJumpsRelative : Obligations.JsrLinksAndJumpsRelative := by
  intro s off
  exact ⟨_, exec_jsr off s, link_getX_seven s, State.setPc_pc _ _, fun _ hne => link_getX_of_ne s hne, rfl,
    memoryAndQueueKept_link s, rfl, rfl⟩

end Sys2Proof.Proofs
end

section
/-! PROOFS. The trap routine OUT (43_trap.md rule R102). -/

namespace Sys2Proof.Proofs

open Sys2Proof.Machine Sys2Proof.Claims

/-! ### Writes to the output channel -/

theorem lowByte_eq_setWidth (w : Word) : lowByte w = w.setWidth 8 :=
  (BitVec.setWidth_eq_extractLsb' (by decide)).symm

theorem registersKept_outBytes (s : State) (bs : List Byte) : RegistersKept s (s.outBytes bs) :=
  ⟨s.outBytes_getX bs, s.outBytes_cond bs⟩

theorem memoryAndQueueKept_outBytes (s : State) (bs : List Byte) : MemoryAndQueueKept s (s.outBytes bs) :=
  ⟨s.outBytes_mem bs, s.outBytes_kbq bs⟩

/-! ### OUT -/

/-- OUT is the write of one character, the low byte of R0, to the output channel (43_trap.md rule R102). -/
@[simp] theorem exec_out (s : State) : exec .out s = .next (s.outBytes [(s.getX 0).setWidth 8]) := by
  rw [← lowByte_eq_setWidth]
  rfl

/-- Settles O35: OUT is a write to the output channel, which keeps every other field. -/
theorem outWritesTheLowByteOfR0 : Obligations.OutWritesTheLowByteOfR0 := by
  intro s
  exact ⟨_, exec_out s, s.outBytes_out _, registersKept_outBytes s _, s.outBytes_pc _,
    memoryAndQueueKept_outBytes s _, s.outBytes_run _⟩

end Sys2Proof.Proofs
end

section
/-! PROOFS. The encoder's words decode to what was encoded (30_encoding.md rules R55, R56, R64). -/

namespace Sys2Proof.Proofs

/-! ### Service vectors -/

/-- The service vectors are the six that the dispatch of 43_trap.md rule R100 names. -/
theorem isServiceVector_eq_false_iff {v : BitVec 8} :
    isServiceVector v = false ↔
      v ≠ 0x20#8 ∧ v ≠ 0x21#8 ∧ v ≠ 0x22#8 ∧ v ≠ 0x23#8 ∧ v ≠ 0x24#8 ∧ v ≠ 0x25#8 := by
  simp only [isServiceVector, Bool.and_eq_false_iff, decide_eq_false_iff_not, BitVec.le_def, ne_eq,
    ← BitVec.toNat_inj, BitVec.toNat_ofNat]
  omega

theorem isServiceVector_of_lt_or_gt {v : BitVec 8} (h : v < 0x20#8 ∨ 0x25#8 < v) : isServiceVector v = false := by
  simpa [isServiceVector, imp_iff_not_or] using h

theorem decodeTrap_of_not_service {w : Word} (h : isServiceVector (trapvect8Field w) = false) :
    decodeTrap w = .trap (trapvect8Field w) := by
  obtain ⟨h20, h21, h22, h23, h24, h25⟩ := isServiceVector_eq_false_iff.mp h
  simp only [decodeTrap, if_neg h20, if_neg h21, if_neg h22, if_neg h23, if_neg h24, if_neg h25]

theorem decodeJmp_of_ne_seven {w : Word} (h : regField w 6 ≠ 7) : decodeJmp w = .jmp (regField w 6) :=
  if_neg h

/-! ### Fields of the encoder's words -/

theorem regBits_toFin (r : Reg) : (regBits r).toFin = r := rfl

/-- JMP is read back unless BaseR = 7, which is the word of RET (42_control.md rule R92). -/
theorem decode_encode_jmp {baseR : Reg} (h : baseR ≠ 7) : decode (encode (.jmp baseR)) = .jmp baseR := by
  have hop : opcode (encode (.jmp baseR)) = 0xC#4 := by
    simp (disch := decide) only [encode, opcode, BitVec.extractLsb'_append_eq_of_le, Nat.reduceSub,
      BitVec.extractLsb'_eq_self]
  have hreg : regField (encode (.jmp baseR)) 6 = baseR := by
    simp (disch := decide) only [encode, regField, BitVec.extractLsb'_append_eq_of_le,
      BitVec.extractLsb'_append_eq_of_add_le, Nat.sub_self, BitVec.extractLsb'_eq_self, regBits_toFin]
  rw [Laws.decode_op_jmp hop, decodeJmp_of_ne_seven (by rwa [hreg]), hreg]

/-- TRAP is read back unless its vector selects a routine (43_trap.md rule R100). -/
theorem decode_encode_trap {v : BitVec 8} (h : isServiceVector v = false) : decode (encode (.trap v)) = .trap v := by
  have hop : opcode (encode (.trap v)) = 0xF#4 := by
    simp (disch := decide) only [encode, opcode, BitVec.extractLsb'_append_eq_of_le, Nat.reduceSub,
      BitVec.extractLsb'_eq_self]
  have hvect : trapvect8Field (encode (.trap v)) = v := by
    simp (disch := decide) only [encode, trapvect8Field, BitVec.extractLsb'_append_eq_of_add_le,
      BitVec.extractLsb'_eq_self]
  rw [Laws.decode_op_trap hop, decodeTrap_of_not_service (by rwa [hvect]), hvect]

/-- Settles O1: the encoder's word is a concatenation, each of whose parts is exactly one slice that the decoder reads. -/
theorem decodeOfEncodeIsTheInstruction : Obligations.DecodeOfEncodeIsTheInstruction := by
  intro i hwf
  cases i
  case jmp baseR => exact decode_encode_jmp (by simpa [Instr.wellFormed] using hwf)
  case trap v => exact decode_encode_trap (by simpa [Instr.wellFormed] using hwf)
  all_goals
    simp (disch := decide) only [encode, decode, decodeJsr, decodeJmp, decodeTrap, opcode, regField, imm5Field,
      offset6Field, pcOffset9Field, pcOffset11Field, trapvect8Field, BitVec.extractLsb'_append_eq_of_le,
      BitVec.extractLsb'_append_eq_of_add_le, BitVec.extractLsb'_eq_self, BitVec.getLsbD_append, Nat.reduceLT,
      Nat.reduceSub, if_true, if_false, regBits_toFin] <;> simp

end Sys2Proof.Proofs
end

section
/-! PROOFS. Which bits of a word the decoder reads: the row of the opcode table (30_encoding.md section 3) and the ignored
bits (rule R58). -/

namespace Sys2Proof.Proofs

/-! ### Masks of fields -/

/-- The ones of the mask are the bits of the fields, each given by its lowest bit and its width. -/
abbrev MaskOf (fields : List (Nat × Nat)) (m : Word) : Prop :=
  ∀ j < 16, m.getLsbD j = true ↔ ∃ f ∈ fields, f.1 ≤ j ∧ j < f.1 + f.2

/-- Two words agree under a mask of fields exactly when each field reads the same. -/
theorem and_eq_iff_fields {fields : List (Nat × Nat)} {m : Word} (hm : MaskOf fields m) (v w : Word) :
    v &&& m = w &&& m ↔ ∀ f ∈ fields, v.extractLsb' f.1 f.2 = w.extractLsb' f.1 f.2 := by
  simp only [BitVec.eq_of_getLsbD_eq_iff, BitVec.getLsbD_and, BitVec.getLsbD_extractLsb']
  constructor
  · intro h f hf i hi
    by_cases hlo : f.1 + i < 16
    · have hbit : m.getLsbD (f.1 + i) = true := (hm _ hlo).mpr ⟨f, hf, by omega, by omega⟩
      simpa [hbit, hi] using h _ hlo
    · simp only [BitVec.getLsbD_of_ge _ _ (Nat.le_of_not_lt hlo)]
  · intro h j hj
    cases hbit : m.getLsbD j with
    | false => simp only [Bool.and_false]
    | true =>
      obtain ⟨f, hf, hlo, hhi⟩ := (hm j hj).mp hbit
      have hfield : j - f.1 < f.2 := by omega
      simpa [hfield, Nat.add_sub_cancel' hlo] using h f hf (j - f.1) hfield

/-- A word has the fixed bits of a row when it has the row's value in each fixed field. -/
theorem and_eq_of_fields {fields : List (Nat × Nat)} {m fixed w : Word} (hm : MaskOf fields m)
    (hfixed : fixed &&& m = fixed) (h : ∀ f ∈ fields, w.extractLsb' f.1 f.2 = fixed.extractLsb' f.1 f.2) :
    w &&& m = fixed :=
  ((and_eq_iff_fields hm w fixed).mpr h).trans hfixed

theorem extractLsb'_one_eq_ofBool (w : Word) (i : Nat) : w.extractLsb' i 1 = BitVec.ofBool (w.getLsbD i) := by
  ext j hj
  rw [Nat.lt_one_iff] at hj
  simp only [hj, BitVec.getElem_extractLsb', Nat.add_zero, BitVec.getElem_ofBool]

/-- The row of an opcode that has one form only: it fixes bits 15:12. -/
theorem and_opcodeMask_eq {w fixed : Word} (hfixed : fixed &&& 0xF000#16 = fixed) (hop : opcode w = opcode fixed) :
    w &&& 0xF000#16 = fixed :=
  and_eq_of_fields (fields := [(12, 4)]) (by decide) hfixed (List.forall_mem_singleton.mpr hop)

/-- A row that fixes bits 15:12 and one more field, which selects the form. -/
theorem and_selectorMask_eq {w m fixed : Word} {lo n : Nat} (hm : MaskOf [(12, 4), (lo, n)] m)
    (hfixed : fixed &&& m = fixed) (hop : opcode w = opcode fixed)
    (hsel : w.extractLsb' lo n = fixed.extractLsb' lo n) : w &&& m = fixed :=
  and_eq_of_fields hm hfixed (List.forall_mem_cons.mpr ⟨hop, List.forall_mem_singleton.mpr hsel⟩)

/-- The rows of the two forms of ADD and of AND, selected by bit 5. -/
theorem and_bit5Mask_eq {w fixed : Word} (hfixed : fixed &&& 0xF020#16 = fixed) (hop : opcode w = opcode fixed)
    (hbit : w.getLsbD 5 = fixed.getLsbD 5) : w &&& 0xF020#16 = fixed :=
  and_selectorMask_eq (lo := 5) (n := 1) (by decide) hfixed hop (by simp only [extractLsb'_one_eq_ofBool, hbit])

/-- The rows of JSR and JSRR, selected by bit 11. -/
theorem and_bit11Mask_eq {w fixed : Word} (hfixed : fixed &&& 0xF800#16 = fixed) (hop : opcode w = opcode fixed)
    (hbit : w.getLsbD 11 = fixed.getLsbD 11) : w &&& 0xF800#16 = fixed :=
  and_selectorMask_eq (lo := 11) (n := 1) (by decide) hfixed hop (by simp only [extractLsb'_one_eq_ofBool, hbit])

/-- The rows of the six service routines, selected by the trap vector. -/
theorem and_vectorMask_eq {w fixed : Word} (hfixed : fixed &&& 0xF0FF#16 = fixed) (hop : opcode w = opcode fixed)
    (hvect : trapvect8Field w = trapvect8Field fixed) : w &&& 0xF0FF#16 = fixed :=
  and_selectorMask_eq (by decide) hfixed hop hvect

/-! ### The row of the decoded instruction -/

/-- The spelling and the row of the instruction that a word decodes to. -/
def LiesInItsRow (w : Word) (i : Instr) : Prop := i.wellFormed = true ∧ w &&& rowMask i = rowMatch i

theorem decodeJsr_row {w : Word} (hop : opcode w = 0x4#4) : LiesInItsRow w (decodeJsr w) := by
  unfold decodeJsr
  split
  next hbit => exact ⟨rfl, and_bit11Mask_eq (fixed := 0x4800#16) rfl hop hbit⟩
  next hbit => exact ⟨rfl, and_bit11Mask_eq (fixed := 0x4000#16) rfl hop (Bool.eq_false_of_not_eq_true hbit)⟩

theorem decodeJmp_row {w : Word} (hop : opcode w = 0xC#4) : LiesInItsRow w (decodeJmp w) := by
  unfold decodeJmp
  split
  next hseven =>
    exact ⟨rfl, and_selectorMask_eq (m := 0xF1C0#16) (fixed := 0xC1C0#16) (by decide) rfl hop (congrArg regBits hseven)⟩
  next hne => exact ⟨by simpa [Instr.wellFormed] using hne, and_opcodeMask_eq (fixed := 0xC000#16) rfl hop⟩

theorem decodeTrap_row {w : Word} (hop : opcode w = 0xF#4) : LiesInItsRow w (decodeTrap w) := by
  unfold decodeTrap
  repeat' split
  iterate 6 exact ⟨rfl, and_vectorMask_eq rfl hop ‹_›⟩
  refine ⟨?_, and_opcodeMask_eq (fixed := 0xF000#16) rfl hop⟩
  simpa [Instr.wellFormed] using isServiceVector_eq_false_iff.mpr ⟨‹_›, ‹_›, ‹_›, ‹_›, ‹_›, ‹_›⟩

/-- Settles O2: opcode by opcode, the fields that choose the form of the decoded instruction are those its row fixes. -/
theorem decodedWordLiesInItsRow : Obligations.DecodedWordLiesInItsRow := by
  intro w
  obtain h | h | h | h | h | h | h | h | h | h | h | h | h | h | h | h := Laws.opcode_cases w
  · rw [Laws.decode_op_br h]; exact ⟨rfl, and_opcodeMask_eq (fixed := 0x0000#16) rfl h⟩
  · rw [Laws.decode_op_add h]
    split
    next hbit => exact ⟨rfl, and_bit5Mask_eq (fixed := 0x1020#16) rfl h hbit⟩
    next hbit => exact ⟨rfl, and_bit5Mask_eq (fixed := 0x1000#16) rfl h (Bool.eq_false_of_not_eq_true hbit)⟩
  · rw [Laws.decode_op_ld h]; exact ⟨rfl, and_opcodeMask_eq (fixed := 0x2000#16) rfl h⟩
  · rw [Laws.decode_op_st h]; exact ⟨rfl, and_opcodeMask_eq (fixed := 0x3000#16) rfl h⟩
  · rw [Laws.decode_op_jsr h]; exact decodeJsr_row h
  · rw [Laws.decode_op_and h]
    split
    next hbit => exact ⟨rfl, and_bit5Mask_eq (fixed := 0x5020#16) rfl h hbit⟩
    next hbit => exact ⟨rfl, and_bit5Mask_eq (fixed := 0x5000#16) rfl h (Bool.eq_false_of_not_eq_true hbit)⟩
  · rw [Laws.decode_op_ldr h]; exact ⟨rfl, and_opcodeMask_eq (fixed := 0x6000#16) rfl h⟩
  · rw [Laws.decode_op_str h]; exact ⟨rfl, and_opcodeMask_eq (fixed := 0x7000#16) rfl h⟩
  · rw [Laws.decode_op_rti h]; exact ⟨rfl, and_opcodeMask_eq (fixed := 0x8000#16) rfl h⟩
  · rw [Laws.decode_op_not h]; exact ⟨rfl, and_opcodeMask_eq (fixed := 0x9000#16) rfl h⟩
  · rw [Laws.decode_op_ldi h]; exact ⟨rfl, and_opcodeMask_eq (fixed := 0xA000#16) rfl h⟩
  · rw [Laws.decode_op_sti h]; exact ⟨rfl, and_opcodeMask_eq (fixed := 0xB000#16) rfl h⟩
  · rw [Laws.decode_op_jmp h]; exact decodeJmp_row h
  · rw [Laws.decode_op_res h]; exact ⟨rfl, and_opcodeMask_eq (fixed := 0xD000#16) rfl h⟩
  · rw [Laws.decode_op_lea h]; exact ⟨rfl, and_opcodeMask_eq (fixed := 0xE000#16) rfl h⟩
  · rw [Laws.decode_op_trap h]; exact decodeTrap_row h

/-! ### The ignored bits -/

theorem extractLsb'_one_eq_iff (v w : Word) (i : Nat) :
    v.extractLsb' i 1 = w.extractLsb' i 1 ↔ v.getLsbD i = w.getLsbD i := by
  rw [extractLsb'_one_eq_ofBool, extractLsb'_one_eq_ofBool, BitVec.ofBool_eq_iff_eq]

theorem regField_eq_iff (v w : Word) (lo : Nat) :
    regField v lo = regField w lo ↔ v.extractLsb' lo 3 = w.extractLsb' lo 3 :=
  ⟨fun h => congrArg regBits h, fun h => congrArg BitVec.toFin h⟩

theorem opcode_eq_of_and_eq {v w m : Word} (hm : opcode m = BitVec.allOnes 4) (h : v &&& m = w &&& m) :
    opcode v = opcode w := by
  have hslice := congrArg opcode h
  simp only [opcode, BitVec.extractLsb'_and] at hm hslice
  rwa [hm, BitVec.and_allOnes, BitVec.and_allOnes] at hslice

theorem opcode_rowMask (i : Instr) : opcode (rowMask i) = BitVec.allOnes 4 := by
  unfold rowMask
  split <;> rfl

theorem opcode_not_ignoredBits (i : Instr) : opcode (~~~ignoredBits i) = BitVec.allOnes 4 := by
  unfold ignoredBits
  split <;> rfl

/-- The row of an instruction fixes bits 15:12, so words that decode alike have one opcode. -/
theorem opcode_eq_of_decode_eq {v w : Word} (h : decode v = decode w) : opcode v = opcode w := by
  obtain ⟨-, hv⟩ := decodedWordLiesInItsRow v
  obtain ⟨-, hw⟩ := decodedWordLiesInItsRow w
  rw [h] at hv
  exact opcode_eq_of_and_eq (opcode_rowMask (decode w)) (hv.trans hw.symm)

/-- What ignoring exactly the ignored bits of `w` says of another word `v`. -/
def IgnoresExactly (v w : Word) : Prop :=
  decode v = decode w ↔ v &&& ~~~(ignoredBits (decode w)) = w &&& ~~~(ignoredBits (decode w))

/-- Two words of one opcode, when the bits that are not ignored are the opcode and the operands' fields. -/
theorem ignoresExactly_of_fields {v w ignored : Word} {i : Instr} {fields : List (Nat × Nat)}
    (hop : opcode v = opcode w) (hw : decode w = i) (hi : ignoredBits i = ignored)
    (hm : MaskOf ((12, 4) :: fields) (~~~ignored))
    (h : decode v = i ↔ ∀ f ∈ fields, v.extractLsb' f.1 f.2 = w.extractLsb' f.1 f.2) : IgnoresExactly v w := by
  rw [IgnoresExactly, hw, hi, and_eq_iff_fields hm, List.forall_mem_cons]
  exact h.trans (and_iff_right hop).symm

/-- The same for an opcode with two forms, `f` and `g`, selected by bit `k`: the selector is not ignored either. -/
theorem ignoresExactly_of_selector {v w ignoredF ignoredG : Word} {k : Nat} {f g : Word → Instr}
    {fieldsF fieldsG : List (Nat × Nat)} (hop : opcode v = opcode w)
    (hdecode : ∀ u, opcode u = opcode w → decode u = if u.getLsbD k then f u else g u) (hne : ∀ x y, f x ≠ g y)
    (hf : ignoredBits (f w) = ignoredF) (hmf : MaskOf ((12, 4) :: (k, 1) :: fieldsF) (~~~ignoredF))
    (hvf : f v = f w ↔ ∀ p ∈ fieldsF, v.extractLsb' p.1 p.2 = w.extractLsb' p.1 p.2)
    (hg : ignoredBits (g w) = ignoredG) (hmg : MaskOf ((12, 4) :: (k, 1) :: fieldsG) (~~~ignoredG))
    (hvg : g v = g w ↔ ∀ p ∈ fieldsG, v.extractLsb' p.1 p.2 = w.extractLsb' p.1 p.2) : IgnoresExactly v w := by
  have hv := hdecode v hop
  have hw := hdecode w rfl
  cases hwk : w.getLsbD k with
  | true =>
    rw [hwk, if_pos rfl] at hw
    refine ignoresExactly_of_fields hop hw hf hmf ?_
    rw [hv, List.forall_mem_cons, extractLsb'_one_eq_iff, hwk, ← hvf]
    split <;> simp [*, (hne w v).symm]
  | false =>
    rw [hwk, if_neg Bool.false_ne_true] at hw
    refine ignoresExactly_of_fields hop hw hg hmg ?_
    rw [hv, List.forall_mem_cons, extractLsb'_one_eq_iff, hwk, ← hvg]
    split <;> simp [*]

/-- The vector of an instruction of the TRAP row, spelled by its routine or not (43_trap.md rule R100). -/
def trapVector : Instr → Option (BitVec 8)
  | .getc => some 0x20#8
  | .out => some 0x21#8
  | .puts => some 0x22#8
  | .inp => some 0x23#8
  | .putsp => some 0x24#8
  | .halt => some 0x25#8
  | .trap v => some v
  | _ => none

theorem trapVector_decodeTrap (w : Word) : trapVector (decodeTrap w) = some (trapvect8Field w) := by
  unfold decodeTrap
  repeat' split
  all_goals simp [trapVector, *]

theorem decodeTrap_eq_iff (v w : Word) : decodeTrap v = decodeTrap w ↔ trapvect8Field v = trapvect8Field w := by
  refine ⟨fun h => ?_, fun h => by simp only [decodeTrap, h]⟩
  simpa [trapVector_decodeTrap] using congrArg trapVector h

theorem ignoredBits_decodeTrap (w : Word) : ignoredBits (decodeTrap w) = 0x0F00#16 := by
  unfold decodeTrap
  repeat' split
  all_goals rfl

theorem decodeJmp_eq_iff (v w : Word) : decodeJmp v = decodeJmp w ↔ regField v 6 = regField w 6 := by
  unfold decodeJmp
  split <;> split <;> simp_all [eq_comm]

theorem ignoredBits_decodeJmp (w : Word) : ignoredBits (decodeJmp w) = 0x0E3F#16 := by
  unfold decodeJmp
  split <;> rfl

theorem ignoresExactly_of_opcode_eq {v w : Word} (hop : opcode v = opcode w) : IgnoresExactly v w := by
  obtain h | h | h | h | h | h | h | h | h | h | h | h | h | h | h | h := Laws.opcode_cases w
  · exact ignoresExactly_of_fields hop (Laws.decode_op_br h) (ignored := 0x0000#16) rfl
      (fields := [(11, 1), (10, 1), (9, 1), (0, 9)]) (by decide)
      (by simp [Laws.decode_op_br (hop.trans h), extractLsb'_one_eq_iff, pcOffset9Field])
  · exact ignoresExactly_of_selector hop (fun u hu => Laws.decode_op_add (hu.trans h)) (by simp)
      (ignoredF := 0x0000#16) rfl (fieldsF := [(9, 3), (6, 3), (0, 5)]) (by decide)
      (by simp [regField_eq_iff, imm5Field])
      (ignoredG := 0x0018#16) rfl (fieldsG := [(9, 3), (6, 3), (0, 3)]) (by decide)
      (by simp [regField_eq_iff])
  · exact ignoresExactly_of_fields hop (Laws.decode_op_ld h) (ignored := 0x0000#16) rfl
      (fields := [(9, 3), (0, 9)]) (by decide)
      (by simp [Laws.decode_op_ld (hop.trans h), regField_eq_iff, pcOffset9Field])
  · exact ignoresExactly_of_fields hop (Laws.decode_op_st h) (ignored := 0x0000#16) rfl
      (fields := [(9, 3), (0, 9)]) (by decide)
      (by simp [Laws.decode_op_st (hop.trans h), regField_eq_iff, pcOffset9Field])
  · exact ignoresExactly_of_selector hop (fun u hu => Laws.decode_op_jsr (hu.trans h)) (by simp)
      (ignoredF := 0x0000#16) rfl (fieldsF := [(0, 11)]) (by decide) (by simp [pcOffset11Field])
      (ignoredG := 0x063F#16) rfl (fieldsG := [(6, 3)]) (by decide) (by simp [regField_eq_iff])
  · exact ignoresExactly_of_selector hop (fun u hu => Laws.decode_op_and (hu.trans h)) (by simp)
      (ignoredF := 0x0000#16) rfl (fieldsF := [(9, 3), (6, 3), (0, 5)]) (by decide)
      (by simp [regField_eq_iff, imm5Field])
      (ignoredG := 0x0018#16) rfl (fieldsG := [(9, 3), (6, 3), (0, 3)]) (by decide)
      (by simp [regField_eq_iff])
  · exact ignoresExactly_of_fields hop (Laws.decode_op_ldr h) (ignored := 0x0000#16) rfl
      (fields := [(9, 3), (6, 3), (0, 6)]) (by decide)
      (by simp [Laws.decode_op_ldr (hop.trans h), regField_eq_iff, offset6Field])
  · exact ignoresExactly_of_fields hop (Laws.decode_op_str h) (ignored := 0x0000#16) rfl
      (fields := [(9, 3), (6, 3), (0, 6)]) (by decide)
      (by simp [Laws.decode_op_str (hop.trans h), regField_eq_iff, offset6Field])
  · exact ignoresExactly_of_fields hop (Laws.decode_op_rti h) (ignored := 0x0FFF#16) rfl
      (fields := []) (by decide) (by simp [Laws.decode_op_rti (hop.trans h)])
  · exact ignoresExactly_of_fields hop (Laws.decode_op_not h) (ignored := 0x003F#16) rfl
      (fields := [(9, 3), (6, 3)]) (by decide) (by simp [Laws.decode_op_not (hop.trans h), regField_eq_iff])
  · exact ignoresExactly_of_fields hop (Laws.decode_op_ldi h) (ignored := 0x0000#16) rfl
      (fields := [(9, 3), (0, 9)]) (by decide)
      (by simp [Laws.decode_op_ldi (hop.trans h), regField_eq_iff, pcOffset9Field])
  · exact ignoresExactly_of_fields hop (Laws.decode_op_sti h) (ignored := 0x0000#16) rfl
      (fields := [(9, 3), (0, 9)]) (by decide)
      (by simp [Laws.decode_op_sti (hop.trans h), regField_eq_iff, pcOffset9Field])
  · exact ignoresExactly_of_fields hop (Laws.decode_op_jmp h) (ignoredBits_decodeJmp w) (fields := [(6, 3)])
      (by decide) (by simp [Laws.decode_op_jmp (hop.trans h), decodeJmp_eq_iff, regField_eq_iff])
  · exact ignoresExactly_of_fields hop (Laws.decode_op_res h) (ignored := 0x0FFF#16) rfl
      (fields := []) (by decide) (by simp [Laws.decode_op_res (hop.trans h)])
  · exact ignoresExactly_of_fields hop (Laws.decode_op_lea h) (ignored := 0x0000#16) rfl
      (fields := [(9, 3), (0, 9)]) (by decide)
      (by simp [Laws.decode_op_lea (hop.trans h), regField_eq_iff, pcOffset9Field])
  · exact ignoresExactly_of_fields hop (Laws.decode_op_trap h) (ignoredBits_decodeTrap w) (fields := [(0, 8)])
      (by decide) (by simp [Laws.decode_op_trap (hop.trans h), decodeTrap_eq_iff, trapvect8Field])

/-- Settles O3: bits 15:12 are never ignored, and words that have them alike differ as the form's other fields do. -/
theorem exactlyTheIgnoredBitsAreIgnored : Obligations.ExactlyTheIgnoredBitsAreIgnored := by
  intro w v
  by_cases hop : opcode v = opcode w
  · exact ignoresExactly_of_opcode_eq hop
  · exact iff_of_false (mt opcode_eq_of_decode_eq hop) (mt (opcode_eq_of_and_eq (opcode_not_ignoredBits _)) hop)

end Sys2Proof.Proofs
end

section
/-! PROOFS. Where the decoder reads each field (30_encoding.md sections 2 to 4). -/

namespace Sys2Proof.Proofs

/-- Settles O4: each of the words is decoded. -/
theorem specWordsDecodeAsTheSpecSays : Obligations.SpecWordsDecodeAsTheSpecSays := by
  unfold Obligations.SpecWordsDecodeAsTheSpecSays
  decide

theorem decodeTrap_of_vector {w : Word} {v : BitVec 8} (h : w.extractLsb' 0 8 = v) :
    decodeTrap w = (if v = 0x20#8 then .getc else if v = 0x21#8 then .out else if v = 0x22#8 then .puts
      else if v = 0x23#8 then .inp else if v = 0x24#8 then .putsp else if v = 0x25#8 then .halt else .trap v) := by
  subst h
  rfl

/-- Settles O5: each clause is the decoder's arm for its opcode, with the selector of the form given. -/
theorem fieldsAreReadWhereTheSpecPutsThem : Obligations.FieldsAreReadWhereTheSpecPutsThem := by
  intro w
  refine ⟨Laws.decode_op_br, fun h hbit => ?_, fun h hbit => ?_, Laws.decode_op_ld, Laws.decode_op_st,
    fun h hbit => ?_, fun h hbit => ?_, fun h hbit => ?_, fun h hbit => ?_, Laws.decode_op_ldr, Laws.decode_op_str,
    Laws.decode_op_rti, Laws.decode_op_not, Laws.decode_op_ldi, Laws.decode_op_sti, fun h hne => ?_, fun h hseven => ?_,
    Laws.decode_op_res, Laws.decode_op_lea, fun h => ?_⟩
  · exact (Laws.decode_op_add h).trans (if_neg (Bool.eq_false_iff.mp hbit))
  · exact (Laws.decode_op_add h).trans (if_pos hbit)
  · exact (Laws.decode_op_jsr h).trans (if_pos hbit)
  · exact (Laws.decode_op_jsr h).trans (if_neg (Bool.eq_false_iff.mp hbit))
  · exact (Laws.decode_op_and h).trans (if_neg (Bool.eq_false_iff.mp hbit))
  · exact (Laws.decode_op_and h).trans (if_pos hbit)
  · exact (Laws.decode_op_jmp h).trans (decodeJmp_of_ne_seven (mt (congrArg regBits) hne))
  · exact (Laws.decode_op_jmp h).trans (if_pos (congrArg BitVec.toFin hseven))
  · rw [Laws.decode_op_trap h]
    refine ⟨decodeTrap_of_vector, decodeTrap_of_vector, decodeTrap_of_vector, decodeTrap_of_vector,
      decodeTrap_of_vector, decodeTrap_of_vector, fun hvect => ?_⟩
    exact decodeTrap_of_not_service (isServiceVector_of_lt_or_gt hvect)

end Sys2Proof.Proofs
end

section
/-! PROOFS. JSRR (42_control.md rule R94), the dispatch of TRAP (43_trap.md rules R100, R107), the stops (44_illegal.md,
43_trap.md rule R106) and the blocking reads (43_trap.md rules R101, R104, R109). -/

namespace Sys2Proof.Proofs

open Sys2Proof.Machine Sys2Proof.Claims

/-! ### JSRR -/

/-- The target is read after the link is written (42_control.md rule R94). -/
@[simp] theorem exec_jsrr (baseR : Reg) (s : State) :
    exec (.jsrr baseR) s = .next (s.link.setPc (s.link.getX baseR)) := rfl

/-- Settles O32: JSRR is the link, then the write of `pc` with the register as the link left it. -/
theorem jsrrLinksThenReadsItsTarget : Obligations.JsrrLinksThenReadsItsTarget := by
  intro s baseR
  exact ⟨_, exec_jsrr baseR s, link_getX_seven s, fun hne => link_getX_of_ne s hne,
    fun hseven => hseven ▸ link_getX_seven s, fun _ hne => link_getX_of_ne s hne, rfl, memoryAndQueueKept_link s, rfl,
    rfl⟩

/-! ### The dispatch of TRAP -/

/-- The six service vectors select the six routines (43_trap.md rule R100). -/
theorem exec_trap_service (s : State) :
    exec (.trap 0x20#8) s = exec .getc s ∧ exec (.trap 0x21#8) s = exec .out s ∧
    exec (.trap 0x22#8) s = exec .puts s ∧ exec (.trap 0x23#8) s = exec .inp s ∧
    exec (.trap 0x24#8) s = exec .putsp s ∧ exec (.trap 0x25#8) s = exec .halt s := by
  refine ⟨?_, ?_, ?_, ?_, ?_, ?_⟩ <;> exact congrArg Host.Outcome.next (by simp [State.trapService])

/-- Every other vector selects none (43_trap.md rule R107). -/
theorem exec_trap_of_not_service {v : BitVec 8} (h : isServiceVector v = false) (s : State) :
    exec (.trap v) s = .next s := by
  obtain ⟨h20, h21, h22, h23, h24, h25⟩ := isServiceVector_eq_false_iff.mp h
  refine congrArg Host.Outcome.next ?_
  simp only [State.trapService, h20, h21, h22, h23, h24, h25, if_false, State.unknownTrap]

/-- Settles O33: the dispatch, for the six service vectors and for the rest. -/
theorem trapDispatchesOnItsVector : Obligations.TrapDispatchesOnItsVector := by
  intro s
  obtain ⟨hgetc, hout, hputs, hin, hputsp, hhalt⟩ := exec_trap_service s
  exact ⟨hgetc, hout, hputs, hin, hputsp, hhalt,
    fun _ hv => exec_trap_of_not_service (isServiceVector_of_lt_or_gt hv) s⟩

/-! ### The stops -/

/-- What the stop for a cause writes to `out` (43_trap.md rule R106, 60_exceptions.md rule R121, 44_illegal.md). -/
def stopMsg : StopCause → List Byte
  | .halt => haltMsg
  | .illegalRti => []
  | .illegalRes => []
  | .pcOverflow => Config.pcOverflowMsg

/-- The state that the stop for a cause leaves. -/
def stopState (s : State) (c : StopCause) : State := (s.outBytes (stopMsg c)).setRun (.stopped c)

theorem stoppedWith_stopState (s : State) (c : StopCause) : StoppedWith c s (stopState s c) :=
  ⟨rfl, registersKept_outBytes s (stopMsg c), rfl, memoryAndQueueKept_outBytes s (stopMsg c)⟩

theorem pcOverflowStop_eq (s : State) : s.pcOverflowStop = stopState s .pcOverflow := rfl

@[simp] theorem exec_halt (s : State) : exec .halt s = .next (stopState s .halt) := rfl

@[simp] theorem exec_rti (s : State) : exec .rti s = .next (stopState s .illegalRti) := by
  rw [stopState, stopMsg, State.outBytes_nil]
  rfl

@[simp] theorem exec_res (s : State) : exec .res s = .next (stopState s .illegalRes) := by
  rw [stopState, stopMsg, State.outBytes_nil]
  rfl

/-- Settles O40: HALT is the stop for its cause, whose message is the five bytes. -/
theorem haltWritesItsMessageAndStops : Obligations.HaltWritesItsMessageAndStops := by
  intro s
  exact ⟨_, exec_halt s, stoppedWith_stopState s .halt, rfl⟩

/-- Settles O42: RTI and RES are the stops for their causes, which have no message. -/
theorem rtiAndResStopTheMachine : Obligations.RtiAndResStopTheMachine := by
  intro s
  exact ⟨⟨_, exec_rti s, stoppedWith_stopState s .illegalRti, List.append_nil s.out⟩,
    ⟨_, exec_res s, stoppedWith_stopState s .illegalRes, List.append_nil s.out⟩⟩

/-! ### The blocking reads -/

theorem registersKept_setRun (s : State) (r : RunState) : RegistersKept s (s.setRun r) :=
  ⟨s.setRun_getX r, s.setRun_cond r⟩

theorem memoryAndQueueKept_setRun (s : State) (r : RunState) : MemoryAndQueueKept s (s.setRun r) :=
  ⟨s.setRun_mem r, s.setRun_kbq r⟩

/-- `s` with the head byte `b` taken into R0 from the queue, of which `q` is left, and the machine running. -/
def takeByte (s : State) (b : Byte) (q : List Byte) : State := ((s.setKbq q).setRun .running).setX 0 (b.setWidth 16)

theorem awaitGetc_empty {s : State} (h : s.kbq = []) : s.awaitGetc = s.setRun .waitGetc :=
  State.awaitKb_empty _ _ h

theorem awaitGetc_byte {s : State} {b : Byte} {q : List Byte} (h : s.kbq = b :: q) : s.awaitGetc = takeByte s b q :=
  State.awaitKb_byte _ _ h

theorem awaitIn_empty {s : State} (h : s.kbq = []) : s.awaitIn = s.setRun .waitIn :=
  State.awaitKb_empty _ _ h

/-- IN echoes the byte that it takes (43_trap.md rule R104). -/
theorem awaitIn_byte {s : State} {b : Byte} {q : List Byte} (h : s.kbq = b :: q) :
    s.awaitIn = takeByte (s.outBytes [b]) b q :=
  State.awaitKb_byte _ _ h

@[simp] theorem exec_getc (s : State) : exec .getc s = .next s.awaitGetc := rfl

@[simp] theorem exec_inp (s : State) : exec .inp s = .next (s.outBytes inPrompt).awaitIn := rfl

theorem takeByte_getX_zero (s : State) (b : Byte) (q : List Byte) : (takeByte s b q).getX 0 = b.setWidth 16 := by
  rw [takeByte, State.setX_getX, if_pos rfl]

theorem takeByte_getX_of_ne (s : State) (b : Byte) (q : List Byte) {r : Reg} (h : r ≠ 0) :
    (takeByte s b q).getX r = s.getX r := by
  rw [takeByte, State.setX_getX, if_neg h.symm]
  rfl

/-- Settles O34: GETC takes the head byte, or changes `run` only. -/
theorem getcTakesOneByteOrWaits : Obligations.GetcTakesOneByteOrWaits := by
  intro s
  refine ⟨fun b q hbyte => ⟨_, exec_getc s, ?_⟩, fun hempty => ⟨_, exec_getc s, ?_⟩⟩
  · rw [awaitGetc_byte hbyte]
    exact ⟨takeByte_getX_zero s b q, fun _ => takeByte_getX_of_ne s b q, rfl, rfl, rfl, rfl, rfl, rfl⟩
  · rw [awaitGetc_empty hempty]
    exact ⟨rfl, registersKept_setRun s _, rfl, memoryAndQueueKept_setRun s _, rfl⟩

/-- Settles O36: IN is its prompt, and then the head byte taken and echoed, or the wait. -/
theorem inPromptsThenTakesAndEchoesOneByte : Obligations.InPromptsThenTakesAndEchoesOneByte := by
  intro s
  refine ⟨fun b q hbyte => ⟨_, exec_inp s, ?_⟩, fun hempty => ⟨_, exec_inp s, ?_⟩⟩
  · rw [awaitIn_byte (s := s.outBytes inPrompt) hbyte]
    exact ⟨rfl, takeByte_getX_zero _ b q, fun _ => takeByte_getX_of_ne _ b q, rfl, rfl, rfl, rfl, rfl⟩
  · rw [awaitIn_empty (s := s.outBytes inPrompt) hempty]
    exact ⟨rfl, rfl, registersKept_setRun _ _, rfl, memoryAndQueueKept_setRun _ _⟩

/-- Settles O58: a step of a blocked read, with a byte queued, takes the byte as the routine would have. -/
theorem blockedReadEndsWithTheHeadByte : Obligations.BlockedReadEndsWithTheHeadByte := by
  intro s b q hbyte
  refine ⟨fun hrun => ⟨_, Laws.step_waitGetc hrun, ?_⟩, fun hrun => ⟨_, Laws.step_waitIn hrun, ?_⟩⟩
  · rw [awaitGetc_byte hbyte]
    exact ⟨takeByte_getX_zero s b q, fun _ => takeByte_getX_of_ne s b q, rfl, rfl, rfl, rfl, rfl, rfl⟩
  · rw [awaitIn_byte hbyte]
    exact ⟨takeByte_getX_zero _ b q, fun _ => takeByte_getX_of_ne _ b q, rfl, rfl, rfl, rfl, rfl, rfl⟩

/-- Settles O10: with no byte queued, a blocked read sets the run state that stands. -/
theorem blockedReadHolds : Obligations.BlockedReadHolds := by
  rintro s (hrun | hrun) hempty
  · rw [Laws.step_waitGetc hrun, awaitGetc_empty hempty, State.setRun_self hrun]
  · rw [Laws.step_waitIn hrun, awaitIn_empty hempty, State.setRun_self hrun]

/-- The run state is written by a blocked read that ends, so what it was before does not show. -/
theorem awaitGetc_setRun_byte {s : State} (r : RunState) (h : s.kbq ≠ []) :
    (s.setRun r).awaitGetc = s.awaitGetc := by
  obtain ⟨b, q, hbyte⟩ := List.exists_cons_of_ne_nil h
  rw [awaitGetc_byte hbyte, awaitGetc_byte (s := s.setRun r) hbyte]
  rfl

theorem awaitIn_setRun_byte {s : State} (r : RunState) (h : s.kbq ≠ []) : (s.setRun r).awaitIn = s.awaitIn := by
  obtain ⟨b, q, hbyte⟩ := List.exists_cons_of_ne_nil h
  rw [awaitIn_byte hbyte, awaitIn_byte (s := s.setRun r) hbyte]
  rfl

/-- Settles O11: the wait state differs in `run` (and IN's in its prompt) from the state the bytes would have found. -/
theorem heldReadEndsAsIfTheByteHadBeenThere : Obligations.HeldReadEndsAsIfTheByteHadBeenThere := by
  intro s bs _ hempty hbs
  have hqueue : (s.setKbq (s.kbq ++ bs)).kbq ≠ [] := by simpa [hempty] using hbs
  simp only [exec_getc, exec_inp, Laws.hostAppend_foldl]
  refine ⟨⟨_, rfl, awaitGetc_empty hempty, ?_⟩, ⟨_, rfl, ?_⟩⟩
  · rw [awaitGetc_empty hempty, Laws.step_waitGetc rfl]
    exact congrArg Host.Outcome.next (awaitGetc_setRun_byte .waitGetc hqueue)
  · rw [awaitIn_empty (s := s.outBytes inPrompt) hempty]
    refine ⟨rfl, rfl, ?_⟩
    rw [Laws.step_waitIn rfl]
    exact congrArg Host.Outcome.next
      (awaitIn_setRun_byte (s := (s.setKbq (s.kbq ++ bs)).outBytes inPrompt) .waitIn hqueue)

end Sys2Proof.Proofs
end

section
/-! PROOFS. The instruction cycle (30_encoding.md rules R50, R51; 60_exceptions.md rules R120, R121), the register file
(10_state.md rule R13), and a store that the next fetch sees. -/

namespace Sys2Proof.Proofs

open Sys2Proof.Machine Sys2Proof.Claims

/-! ### The cycle -/

/-- A running step away from KBSR (30_encoding.md rule R50). -/
theorem step_of_cell {s : State} (hrun : s.run = .running) (hlast : s.pc ≠ pcLast) (hkbsr : s.pc ≠ kbsrAddr) :
    step s = exec (decode (s.cell s.pc)) (s.setPc (s.pc + 1#16)) := by
  rw [Laws.step_running hrun hlast, State.fetch_of_ne hkbsr]

/-- Settles O6: a running step is a fetch and its handler, and the fetch polls at KBSR only. -/
theorem stepRunsTheDecodedInstruction : Obligations.StepRunsTheDecodedInstruction := by
  rintro s i hrun hlast
  refine ⟨?_, fun hkbsr => ?_⟩
  · rintro rfl
    exact Laws.step_running hrun hlast
  · rintro rfl
    exact step_of_cell hrun hlast hkbsr

/-- Settles O7: the poll's two answers, 0 and 0x8000, are the words of a BR that selects no flag and of RTI. -/
theorem fetchAtKbsrPollsTheKeyboard : Obligations.FetchAtKbsrPollsTheKeyboard := by
  intro s hrun hpc
  have hlast : s.pc ≠ pcLast := by rw [hpc]; decide
  have hstep := Laws.step_running hrun hlast
  rw [State.fetch, show s.pc = kbsrAddr from hpc] at hstep
  have hbr : decode 0x0000#16 = .br false false false 0#9 := by decide
  have hrti : decode kbReady = .rti := by decide
  refine ⟨fun hempty => ?_, fun b q hbyte => ?_⟩
  · rw [hstep, State.memRead_kbsr_empty hempty, ← hbr]
    rfl
  · rw [hstep, State.memRead_kbsr_byte hbyte, ← hrti]
    rfl

/-- Settles O8: a step at 0xFFFF is the stop for PC overflow. -/
theorem pcOverflowStopsWithoutFetching : Obligations.PcOverflowStopsWithoutFetching := by
  intro s hrun hpc
  exact ⟨_, Laws.step_overflow hrun hpc, stoppedWith_stopState s .pcOverflow, rfl⟩

/-- Settles O9: `step` answers its fault from a stopped state. -/
theorem stoppedMachineHasNoStep : Obligations.StoppedMachineHasNoStep := by
  intro s c hrun
  simp only [step, hrun]

/-! ### The register file by index -/

theorem readFile_of_lt (s : State) {i : Fin 10} (h : i.val < 8) : s.readFile i = s.getX ⟨i.val, h⟩ := dif_pos h

theorem readFile_eight (s : State) : s.readFile 8 = s.pc := rfl

theorem readFile_nine (s : State) : s.readFile 9 = s.cond := rfl

theorem writeFile_of_lt (s : State) {i : Fin 10} (h : i.val < 8) (v : Word) : s.writeFile i v = s.setX ⟨i.val, h⟩ v :=
  dif_pos h

theorem writeFile_eight (s : State) (v : Word) : s.writeFile 8 v = s.setPc v := rfl

theorem writeFile_nine (s : State) (v : Word) : s.writeFile 9 v = s.setCond v := rfl

/-- The three kinds of index (10_state.md rule R13). -/
theorem fileIndex_cases (i : Fin 10) : i.val < 8 ∨ i = 8 ∨ i = 9 := by
  omega

theorem readFile_writeFile (s : State) (i j : Fin 10) (v : Word) :
    (s.writeFile i v).readFile j = if j = i then v else s.readFile j := by
  obtain hi | rfl | rfl := fileIndex_cases i
  · rw [writeFile_of_lt s hi]
    obtain hj | rfl | rfl := fileIndex_cases j
    · rw [readFile_of_lt _ hj, readFile_of_lt _ hj, State.setX_getX]
      simp only [Fin.ext_iff, eq_comm]
    · rw [if_neg (by omega), readFile_eight, readFile_eight, State.setX_pc]
    · rw [if_neg (by omega), readFile_nine, readFile_nine, State.setX_cond]
  · rw [writeFile_eight]
    obtain hj | rfl | rfl := fileIndex_cases j
    · rw [if_neg (by omega), readFile_of_lt _ hj, readFile_of_lt _ hj, State.setPc_getX]
    · rfl
    · rfl
  · rw [writeFile_nine]
    obtain hj | rfl | rfl := fileIndex_cases j
    · rw [if_neg (by omega), readFile_of_lt _ hj, readFile_of_lt _ hj, State.setCond_getX]
    · rfl
    · rfl

/-- The write of the register file touches no other part of the state, whatever the index. -/
theorem writeFile_frame (s : State) (i : Fin 10) (v : Word) :
    (s.writeFile i v).mem = s.mem ∧ (s.writeFile i v).run = s.run ∧
    (s.writeFile i v).kbq = s.kbq ∧ (s.writeFile i v).out = s.out := by
  obtain hi | rfl | rfl := fileIndex_cases i
  · rw [writeFile_of_lt s hi]
    exact ⟨rfl, rfl, rfl, rfl⟩
  · exact ⟨rfl, rfl, rfl, rfl⟩
  · exact ⟨rfl, rfl, rfl, rfl⟩

/-- Settles O14: read after write by the three kinds of index. -/
theorem registerFileReadsWhatWasWritten : Obligations.RegisterFileReadsWhatWasWritten := by
  intro s i j v
  exact ⟨readFile_writeFile s i j v, readFile_eight s, readFile_nine s, fun r => readFile_of_lt s r.isLt,
    writeFile_frame s i v⟩

/-! ### A store, then the next fetch or a load -/

/-- The gate writes no cell but the two keyboard registers (20_memory.md rule R33). -/
theorem gate_cell_of_ne (s : State) (p : Word) {a : Word} (hkbsr : a ≠ kbsrAddr) (hkbdr : a ≠ kbdrAddr) :
    (s.gate p).cell a = s.cell a := by
  obtain ⟨-, hg⟩ | ⟨-, -, hg⟩ | ⟨-, b, q, -, hg⟩ := s.gate_cases p
  · rw [hg]
  · rw [hg, setCell_cell_of_ne _ _ hkbsr]
  · rw [hg, setCell_cell_of_ne _ _ hkbdr, setCell_cell_of_ne _ _ hkbsr, State.setKbq_cell]

/-- The poll answers 0x0000 or 0x8000, so a pointer read from KBSR never points at KBDR. -/
theorem memRead_kbsr_fst_ne_kbdrAddr (s : State) : (s.memRead kbsrAddr).1 ≠ kbdrAddr := by
  cases hq : s.kbq with
  | nil =>
    rw [State.memRead_kbsr_empty hq]
    exact show 0x0000#16 ≠ kbdrAddr by decide
  | cons b q =>
    rw [State.memRead_kbsr_byte hq]
    exact show kbReady ≠ kbdrAddr by decide

/-- The read of a pointer leaves the cell it points at as it was: where it polls, it does not point at what it wrote. -/
theorem gate_cell_pointer {s : State} {p a : Word} (ha : (s.memRead p).1 = a) (hkbsr : a ≠ kbsrAddr) :
    (s.gate p).cell a = s.cell a := by
  by_cases hp : p = kbsrAddr
  · subst hp
    exact gate_cell_of_ne s kbsrAddr hkbsr (ha ▸ memRead_kbsr_fst_ne_kbdrAddr s)
  · rw [State.gate_of_ne hp]

/-- Every store is the write of the stored register at its address, in a state that at most a gate changed. -/
theorem exec_store {i : Instr} {sr : Reg} {s : State} {a : Word} (hi : IsStoreOf i sr) (ha : storeAddr i s = some a) :
    ∃ g : State, exec i s = .next (g.setCell a (s.getX sr)) ∧ g.pc = s.pc ∧ g.run = s.run := by
  obtain ⟨off, rfl⟩ | ⟨off, rfl⟩ | ⟨baseR, off, rfl⟩ := hi <;> obtain rfl := Option.some.inj ha
  · exact ⟨s, exec_st sr off s, rfl, rfl⟩
  · exact ⟨_, exec_sti sr off s, s.gate_pc _, s.gate_run _⟩
  · exact ⟨s, exec_str sr baseR off s, rfl, rfl⟩

/-- Every load is the load of the cell at its address, in a state in which that cell is as before, unless it is KBSR. -/
theorem exec_load {j : Instr} {dr : Reg} {s : State} {a : Word} (hj : IsLoadInto j dr) (ha : loadAddr j s = some a) :
    ∃ g : State, exec j s = .next (g.loadFrom dr a) ∧ (a ≠ kbsrAddr → g.cell a = s.cell a) := by
  obtain ⟨off, rfl⟩ | ⟨off, rfl⟩ | ⟨baseR, off, rfl⟩ := hj <;> replace ha := Option.some.inj ha
  · exact ⟨s, ha ▸ exec_ld dr off s, fun _ => rfl⟩
  · exact ⟨_, ha ▸ exec_ldi dr off s, gate_cell_pointer ha⟩
  · exact ⟨s, ha ▸ exec_ldr dr baseR off s, fun _ => rfl⟩

/-- Settles O27: the load reads the cell that the store wrote, which no gate between them changes. -/
theorem storeThenLoadReturnsTheValue : Obligations.StoreThenLoadReturnsTheValue := by
  intro s i j sr dr a hi hj haddr hne
  obtain ⟨g, hstore, -, -⟩ := exec_store hi haddr
  refine ⟨_, hstore, fun p hload => ?_⟩
  obtain ⟨g', hexec, hcell⟩ := exec_load hj hload
  obtain ⟨hdest, -⟩ := destGets_loadFrom g' dr a
  refine ⟨_, hexec, ?_⟩
  calc (g'.loadFrom dr a).getX dr
      = g'.cell a := by rw [hdest, State.memRead_of_ne hne]
    _ = (g.setCell a (s.getX sr)).cell a := hcell hne
    _ = s.getX sr := setCell_cell_same g a _

/-- Settles O28: the cell at `pc` holds the stored register when the next step fetches it. -/
theorem storeIsSeenByTheNextFetch : Obligations.StoreIsSeenByTheNextFetch := by
  intro s i sr hrun hlast hkbsr hi haddr
  obtain ⟨g, hstore, hpc, hgrun⟩ := exec_store hi haddr
  refine ⟨_, hstore, ?_⟩
  have hstep := step_of_cell (s := g.setCell s.pc (s.getX sr)) (hgrun.trans hrun) (ne_of_eq_of_ne hpc hlast)
    (ne_of_eq_of_ne hpc hkbsr)
  rwa [State.setCell_pc, hpc, setCell_cell_same] at hstep

/-! ### Negation -/

/-- Settles O21: the complement of `a` is `-1 - a`, so one more is `0 - a`. -/
theorem notThenAddOneNegates : Obligations.NotThenAddOneNegates := by
  intro s dr sr
  obtain ⟨t, hnot, ⟨hdest, hother, -⟩, -⟩ := exists_destGets_of_exec_eq (exec_not dr sr s)
  obtain ⟨u, hadd, ⟨hdest', hother', hflags, -⟩, -⟩ := exists_destGets_of_exec_eq (exec_addImm dr dr 1#5 t)
  have hneg : t.getX dr + sext 1#5 = 0#16 - s.getX sr := by
    rw [hdest, show sext 1#5 = 1#16 from rfl]
    bv_omega
  rw [hneg] at hdest' hflags
  refine ⟨t, u, hnot, hadd, ?_, hflags, fun r hr => (hother' r hr).trans (hother r hr)⟩
  rw [hdest', BitVec.toNat_sub, BitVec.toNat_ofNat]
  rfl

end Sys2Proof.Proofs
end

section
/-! PROOFS. What an instruction can change, said once for all of them (10_state.md rules R10, R11; 00_scope.md rule R6;
20_memory.md section 3; 60_exceptions.md rule R120). -/

namespace Sys2Proof.Proofs

open Sys2Proof.Machine Sys2Proof.Claims

/-! ### Gated reads -/

/-- A byte of memory changed only in KBSR, or in KBDR when a byte was taken off the queue. -/
def KeyboardBytesOnly (s t : State) : Prop :=
  ∀ k, outside k kbsrAddr → (outside k kbdrAddr ∨ t.kbq = s.kbq) → t.mem.readByte k = s.mem.readByte k

theorem keyboardBytesOnly_of_mem_eq {s t : State} (h : t.mem = s.mem) : KeyboardBytesOnly s t :=
  fun _ _ _ => by rw [h]

theorem keyboardBytesOnly_of_serviceFrame {s t : State} (f : Laws.ServiceFrame s t) : KeyboardBytesOnly s t := by
  rintro k ⟨hhigh, hlow⟩ (⟨hhigh', hlow'⟩ | hkbq)
  · exact f.readByte k hhigh hlow hhigh' hlow'
  · exact f.readByte_of_kbq hkbq k hhigh hlow

/-- Everything that gated reads and writes to `out` can change. -/
structure PollFrame (s t : State) : Prop extends Laws.StringFrame s t where
  keyboardBytes : KeyboardBytesOnly s t

theorem PollFrame.refl (s : State) : PollFrame s s where
  getX _ := rfl
  pc := rfl
  cond := rfl
  run := rfl
  out := List.prefix_rfl
  kbq := List.suffix_rfl
  wf := id
  readByte _ _ _ _ _ := rfl
  keyboardBytes := keyboardBytesOnly_of_mem_eq rfl

theorem PollFrame.gate (s : State) (a : Word) : PollFrame s (s.gate a) where
  toStringFrame := by simpa using Laws.stringFrame_gate s a []
  keyboardBytes := by
    rintro k ⟨hhigh, hlow⟩ (⟨hhigh', hlow'⟩ | hkbq)
    · exact s.gate_readByte a hhigh hlow hhigh' hlow'
    · exact Laws.gate_readByte_of_kbq hhigh hlow hkbq

/-- If the queue is the same after two polls, neither took a byte. -/
theorem PollFrame.trans {s t u : State} (f : PollFrame s t) (g : PollFrame t u) : PollFrame s u where
  toStringFrame := f.toStringFrame.trans g.toStringFrame
  keyboardBytes k hk hk' := by
    obtain hout | hkbq := hk'
    · exact (g.keyboardBytes k hk (.inl hout)).trans (f.keyboardBytes k hk (.inl hout))
    · have hfirst : t.kbq = s.kbq := f.kbq.eq_of_length_le (hkbq ▸ g.kbq.length_le)
      exact (g.keyboardBytes k hk (.inr (hkbq.trans hfirst.symm))).trans (f.keyboardBytes k hk (.inr hfirst))

theorem PollFrame.outBytes (s : State) (bs : List Byte) : PollFrame s (s.outBytes bs) where
  getX _ := rfl
  pc := rfl
  cond := rfl
  run := rfl
  out := List.prefix_append _ _
  kbq := List.suffix_rfl
  wf := id
  readByte _ _ _ _ _ := rfl
  keyboardBytes := keyboardBytesOnly_of_mem_eq rfl

theorem PollFrame.writeString (s : State) (bytes : Word → List Byte) (a : Word) :
    PollFrame s (s.writeString bytes a) where
  toStringFrame := Laws.writeString_frame s bytes a
  keyboardBytes := keyboardBytesOnly_of_serviceFrame (Laws.writeString_service s bytes a)

/-! ### The service routines by vector -/

/-- Everything a service routine can be (43_trap.md rule R100): GETC, IN, a string, HALT, or at most one byte to `out`. -/
theorem trapService_cases (s : State) (v : BitVec 8) :
    (v = 0x20#8 ∧ s.trapService v = s.awaitGetc) ∨
    (v = 0x23#8 ∧ s.trapService v = (s.outBytes inPrompt).awaitIn) ∨
    ((v = 0x22#8 ∨ v = 0x24#8) ∧ ∃ bytes, s.trapService v = s.writeString bytes (s.getX 0)) ∨
    (v = 0x25#8 ∧ s.trapService v = stopState s .halt) ∨
    (v ≠ 0x20#8 ∧ v ≠ 0x23#8 ∧ v ≠ 0x25#8 ∧ ∃ bs, s.trapService v = s.outBytes bs) := by
  unfold State.trapService
  split
  next h => exact .inl ⟨h, rfl⟩
  next h20 =>
  split
  next h => subst h; exact .inr (.inr (.inr (.inr ⟨by decide, by decide, by decide, _, rfl⟩)))
  split
  next h => exact .inr (.inr (.inl ⟨.inl h, _, rfl⟩))
  split
  next h => exact .inr (.inl ⟨h, rfl⟩)
  next h23 =>
  split
  next h => exact .inr (.inr (.inl ⟨.inr h, _, rfl⟩))
  split
  next h => exact .inr (.inr (.inr (.inl ⟨h, rfl⟩)))
  next h25 => exact .inr (.inr (.inr (.inr ⟨h20, h23, h25, [], s.outBytes_nil.symm⟩)))

/-! ### The frame of an instruction -/

/-- The cause for which an instruction stops the machine (60_exceptions.md rule R120). -/
def stopCauseOf : Instr → Option StopCause
  | .rti => some .illegalRti
  | .res => some .illegalRes
  | .halt => some .halt
  | .trap v => if v = 0x25#8 then some .halt else none
  | _ => none

/-- What the run state is after an instruction that does not stop: as before, or what a blocking read sets. -/
def RunsOn (s t : State) : Prop :=
  t.run = s.run ∨ t.run = .running ∨ t = s.setRun .waitGetc ∨ t = (s.outBytes inPrompt).setRun .waitIn

/-- Everything that an instruction can change. -/
structure ExecFrame (i : Instr) (s t : State) : Prop where
  getX : ∀ r, writtenReg i ≠ some r → t.getX r = s.getX r
  flags : ∀ dr, flagDest i = some dr → t.cond = condOf (t.getX dr)
  cond : flagDest i = none → t.cond = s.cond
  pc : writesPc i = false → t.pc = s.pc
  out : s.out <+: t.out
  kbq : t.kbq <:+ s.kbq
  wf : s.mem.wf → t.mem.wf
  readByte : ∀ k, (∀ a, storeAddr i s = some a → outside k a) → outside k kbsrAddr →
    (outside k kbdrAddr ∨ t.kbq = s.kbq) → t.mem.readByte k = s.mem.readByte k
  stop : ∀ c, stopCauseOf i = some c → t = stopState s c
  runsOn : stopCauseOf i = none → RunsOn s t

section Forms

variable {i : Instr} {s g t : State} {r : Reg} {a v : Word}

/-- A flag-setting instruction, after the gated reads of its operands. -/
theorem ExecFrame.of_result (hdest : flagDest i = some r) (hreg : writtenReg i = some r) (hstop : stopCauseOf i = none)
    (f : PollFrame s g) : ExecFrame i s (g.setXcc r v) := by
  obtain ⟨hdr, hother, -, hpc, hout, hrun⟩ := destGets_setXcc g r v
  refine ⟨fun r' hr => ?_, fun dr hdr' => ?_, fun hnone => ?_, fun _ => hpc.trans f.pc, hout ▸ f.out, f.kbq, f.wf,
    fun k _ => f.keyboardBytes k, fun c hc => ?_, fun _ => .inl (hrun.trans f.run)⟩
  · exact (hother r' fun h => hr (h ▸ hreg)).trans (f.getX r')
  · obtain rfl := Option.some.inj (hdest.symm.trans hdr')
    rw [setXcc_cond, hdr]
  · exact absurd (hdest.symm.trans hnone) (Option.some_ne_none r)
  · exact absurd (hc.symm.trans hstop) (Option.some_ne_none c)

/-- A store, after the gated read of its pointer. -/
theorem ExecFrame.of_store (haddr : storeAddr i s = some a) (hdest : flagDest i = none) (hstop : stopCauseOf i = none)
    (f : PollFrame s g) : ExecFrame i s (g.setCell a v) where
  getX r _ := f.getX r
  flags _ h := by simp [hdest] at h
  cond _ := f.cond
  pc _ := f.pc
  out := f.out
  kbq := f.kbq
  wf h := State.setCell_wf (f.wf h) a v
  readByte k hk h1 h2 := (setCell_readByte_of_outside g v (hk a haddr)).trans (f.keyboardBytes k h1 h2)
  stop _ h := by simp [hstop] at h
  runsOn _ := .inl f.run

/-- An instruction that only polls and writes to `out`. -/
theorem ExecFrame.of_poll (hdest : flagDest i = none) (hstop : stopCauseOf i = none) (f : PollFrame s t) :
    ExecFrame i s t where
  getX r _ := f.getX r
  flags _ h := by simp [hdest] at h
  cond _ := f.cond
  pc _ := f.pc
  out := f.out
  kbq := f.kbq
  wf := f.wf
  readByte k _ := f.keyboardBytes k
  stop _ h := by simp [hstop] at h
  runsOn _ := .inl f.run

/-- A jump, or a call, which writes R7 first. -/
theorem ExecFrame.of_transfer (hpc : writesPc i = true) (hdest : flagDest i = none) (hstop : stopCauseOf i = none)
    (hlink : g = s ∨ (writtenReg i = some 7 ∧ g = s.link)) : ExecFrame i s (g.setPc v) := by
  have kept : g.cond = s.cond ∧ g.mem = s.mem ∧ g.kbq = s.kbq ∧ g.out = s.out ∧ g.run = s.run := by
    obtain rfl | ⟨-, rfl⟩ := hlink <;> exact ⟨rfl, rfl, rfl, rfl, rfl⟩
  obtain ⟨hcond, hmem, hkbq, hout, hrun⟩ := kept
  refine ⟨fun r hr => ?_, fun _ h => ?_, fun _ => hcond, fun h => ?_, ?_, ?_, fun h => ?_, fun k _ _ _ => ?_,
    fun _ h => ?_, fun _ => .inl hrun⟩
  · obtain rfl | ⟨hreg, rfl⟩ := hlink
    · rfl
    · exact link_getX_of_ne s fun h => hr (h ▸ hreg)
  · simp [hdest] at h
  · simp [hpc] at h
  · simp [hout]
  · simp [hkbq]
  · simpa [hmem] using h
  · simp [hmem]
  · simp [hstop] at h

/-- An instruction that stops the machine. -/
theorem ExecFrame.of_stop {c : StopCause} (hdest : flagDest i = none) (hstop : stopCauseOf i = some c) :
    ExecFrame i s (stopState s c) where
  getX _ _ := rfl
  flags _ h := by simp [hdest] at h
  cond _ := rfl
  pc _ := rfl
  out := List.prefix_append _ _
  kbq := List.suffix_rfl
  wf := id
  readByte _ _ _ _ := rfl
  stop c' h := by rw [Option.some.inj (hstop.symm.trans h)]
  runsOn h := by simp [hstop] at h

/-- A blocking read, which holds or takes a byte into R0. -/
theorem ExecFrame.of_await (hdest : flagDest i = none) (hreg : writtenReg i = some 0) (hstop : stopCauseOf i = none)
    (f : Laws.ServiceFrame s t) (hrun : RunsOn s t) : ExecFrame i s t where
  getX r hr := f.getX r fun h => hr (h ▸ hreg)
  flags _ h := by simp [hdest] at h
  cond _ := f.cond
  pc _ := f.pc
  out := f.out
  kbq := f.kbq
  wf := f.wf
  readByte k _ := keyboardBytesOnly_of_serviceFrame f k
  stop _ h := by simp [hstop] at h
  runsOn _ := hrun

end Forms

theorem awaitGetc_runsOn (s : State) : RunsOn s s.awaitGetc := by
  cases hq : s.kbq with
  | nil => exact .inr (.inr (.inl (awaitGetc_empty hq)))
  | cons b q => exact .inr (.inl (by rw [awaitGetc_byte hq]; rfl))

theorem inRoutine_runsOn (s : State) : RunsOn s s.inRoutine := by
  cases hq : s.kbq with
  | nil => exact .inr (.inr (.inr (awaitIn_empty hq)))
  | cons b q => exact .inr (.inl (by rw [State.inRoutine, awaitIn_byte (s := s.outBytes inPrompt) hq]; rfl))

theorem execFrame_getc (s : State) {i : Instr} (hdest : flagDest i = none) (hreg : writtenReg i = some 0)
    (hstop : stopCauseOf i = none) : ExecFrame i s s.awaitGetc :=
  .of_await hdest hreg hstop (Laws.awaitGetc_frame s).1 (awaitGetc_runsOn s)

theorem execFrame_inp (s : State) {i : Instr} (hdest : flagDest i = none) (hreg : writtenReg i = some 0)
    (hstop : stopCauseOf i = none) : ExecFrame i s s.inRoutine :=
  .of_await hdest hreg hstop (Laws.inRoutine_frame s).1 (inRoutine_runsOn s)

theorem execFrame_trap (v : BitVec 8) (s : State) : ExecFrame (.trap v) s (s.trapService v) := by
  obtain ⟨rfl, h⟩ | ⟨rfl, h⟩ | ⟨hv, bytes, h⟩ | ⟨rfl, h⟩ | ⟨-, -, h25, bs, h⟩ := trapService_cases s v <;> rw [h]
  · exact execFrame_getc s rfl rfl rfl
  · exact execFrame_inp s rfl rfl rfl
  · have hstop : stopCauseOf (.trap v) = none := by obtain rfl | rfl := hv <;> rfl
    exact .of_poll rfl hstop (.writeString s bytes _)
  · exact .of_stop rfl rfl
  · exact .of_poll rfl (if_neg h25) (.outBytes s bs)

/-- Every instruction answers a next state, and changes no more than its frame allows. -/
theorem exec_frame (i : Instr) (s : State) : ∃ t, exec i s = .next t ∧ ExecFrame i s t := by
  cases i with
  | br n z p off => exact ⟨_, exec_br n z p off s, .of_transfer rfl rfl rfl (.inl rfl)⟩
  | addReg dr sr1 sr2 => exact ⟨_, exec_addReg dr sr1 sr2 s, .of_result rfl rfl rfl (.refl s)⟩
  | addImm dr sr1 imm => exact ⟨_, exec_addImm dr sr1 imm s, .of_result rfl rfl rfl (.refl s)⟩
  | ld dr off => exact ⟨_, exec_ld dr off s, .of_result rfl rfl rfl (.gate s _)⟩
  | st sr off => exact ⟨_, exec_st sr off s, .of_store rfl rfl rfl (.refl s)⟩
  | jsr off => exact ⟨_, exec_jsr off s, .of_transfer rfl rfl rfl (.inr ⟨rfl, rfl⟩)⟩
  | jsrr baseR => exact ⟨_, exec_jsrr baseR s, .of_transfer rfl rfl rfl (.inr ⟨rfl, rfl⟩)⟩
  | andReg dr sr1 sr2 => exact ⟨_, exec_andReg dr sr1 sr2 s, .of_result rfl rfl rfl (.refl s)⟩
  | andImm dr sr1 imm => exact ⟨_, exec_andImm dr sr1 imm s, .of_result rfl rfl rfl (.refl s)⟩
  | ldr dr baseR off => exact ⟨_, exec_ldr dr baseR off s, .of_result rfl rfl rfl (.gate s _)⟩
  | str sr baseR off => exact ⟨_, exec_str sr baseR off s, .of_store rfl rfl rfl (.refl s)⟩
  | rti => exact ⟨_, exec_rti s, .of_stop rfl rfl⟩
  | not dr sr => exact ⟨_, exec_not dr sr s, .of_result rfl rfl rfl (.refl s)⟩
  | ldi dr off => exact ⟨_, exec_ldi dr off s, .of_result rfl rfl rfl ((PollFrame.gate s _).trans (.gate _ _))⟩
  | sti sr off => exact ⟨_, exec_sti sr off s, .of_store rfl rfl rfl (.gate s _)⟩
  | jmp baseR => exact ⟨_, exec_jmp baseR s, .of_transfer rfl rfl rfl (.inl rfl)⟩
  | ret => exact ⟨_, exec_ret s, .of_transfer rfl rfl rfl (.inl rfl)⟩
  | res => exact ⟨_, exec_res s, .of_stop rfl rfl⟩
  | lea dr off => exact ⟨_, exec_lea dr off s, .of_result rfl rfl rfl (.refl s)⟩
  | getc => exact ⟨_, exec_getc s, execFrame_getc s rfl rfl rfl⟩
  | out => exact ⟨_, exec_out s, .of_poll rfl rfl (.outBytes s _)⟩
  | puts => exact ⟨_, rfl, .of_poll rfl rfl (.writeString s putsBytes _)⟩
  | inp => exact ⟨_, exec_inp s, execFrame_inp s rfl rfl rfl⟩
  | putsp => exact ⟨_, rfl, .of_poll rfl rfl (.writeString s putspBytes _)⟩
  | halt => exact ⟨_, exec_halt s, .of_stop rfl rfl⟩
  | trap v => exact ⟨_, rfl, execFrame_trap v s⟩

theorem execFrame_of_exec {i : Instr} {s t : State} (h : exec i s = .next t) : ExecFrame i s t := by
  obtain ⟨u, hexec, f⟩ := exec_frame i s
  obtain rfl := Host.Outcome.next.inj (hexec.symm.trans h)
  exact f

end Sys2Proof.Proofs
end

section
/-! PROOFS. What no instruction and no step may do (00_scope.md section 5.3; 10_state.md sections 1, 2, 10 and 12;
20_memory.md sections 2 and 3; 43_trap.md, dispatch; 60_exceptions.md sections 1 and 4). -/

namespace Sys2Proof.Proofs

open Sys2Proof.Machine Sys2Proof.Claims

/-! ### Instructions -/

/-- Settles O43: no case of the frame is a fault or a refusal. -/
theorem everyInstructionCompletes : Obligations.EveryInstructionCompletes := by
  intro i s
  obtain ⟨t, hexec, -⟩ := exec_frame i s
  exact ⟨t, hexec⟩

/-- Settles O45: by the frame of the instruction. -/
theorem onlyTheWrittenRegisterChanges : Obligations.OnlyTheWrittenRegisterChanges :=
  fun _ _ _ hexec => (execFrame_of_exec hexec).getX

/-- Settles O47: by the frame of the instruction. -/
theorem onlyStoresAndPollsChangeMemory : Obligations.OnlyStoresAndPollsChangeMemory :=
  fun _ _ _ hexec => (execFrame_of_exec hexec).readByte

/-! ### Traps -/

/-- A vector is spelled by `trap`, or by the routine it selects. -/
theorem trapVector_cases {i : Instr} {v : BitVec 8} (h : trapVector i = some v) :
    i = .trap v ∨ (i = .getc ∧ v = 0x20#8) ∨ (i = .out ∧ v = 0x21#8) ∨ (i = .puts ∧ v = 0x22#8) ∨
    (i = .inp ∧ v = 0x23#8) ∨ (i = .putsp ∧ v = 0x24#8) ∨ (i = .halt ∧ v = 0x25#8) := by
  unfold trapVector at h
  split at h <;> cases h <;> simp

theorem exec_of_trapVector {i : Instr} {v : BitVec 8} (h : trapVector i = some v) (s : State) :
    exec i s = .next (s.trapService v) := by
  obtain ⟨hgetc, hout, hputs, hin, hputsp, hhalt⟩ := exec_trap_service s
  obtain rfl | ⟨rfl, rfl⟩ | ⟨rfl, rfl⟩ | ⟨rfl, rfl⟩ | ⟨rfl, rfl⟩ | ⟨rfl, rfl⟩ | ⟨rfl, rfl⟩ := trapVector_cases h
  · rfl
  · exact hgetc.symm
  · exact hout.symm
  · exact hputs.symm
  · exact hin.symm
  · exact hputsp.symm
  · exact hhalt.symm

/-- A trap writes no flag and no `pc` and stores nothing (43_trap.md rule R108). -/
theorem writes_of_trapVector {i : Instr} {v : BitVec 8} (h : trapVector i = some v) :
    flagDest i = none ∧ writesPc i = false ∧ (∀ s, storeAddr i s = none) ∧
    writtenReg i = if v = 0x20#8 ∨ v = 0x23#8 then some 0 else none := by
  obtain rfl | ⟨rfl, rfl⟩ | ⟨rfl, rfl⟩ | ⟨rfl, rfl⟩ | ⟨rfl, rfl⟩ | ⟨rfl, rfl⟩ | ⟨rfl, rfl⟩ := trapVector_cases h <;>
    exact ⟨rfl, rfl, fun _ => rfl, rfl⟩

/-- A trap that reads no string leaves memory as it was. -/
theorem trapService_mem {v : BitVec 8} (hputs : v ≠ 0x22#8) (hputsp : v ≠ 0x24#8) (s : State) :
    (s.trapService v).mem = s.mem := by
  obtain ⟨-, h⟩ | ⟨-, h⟩ | ⟨hv, -⟩ | ⟨-, h⟩ | ⟨-, -, -, bs, h⟩ := trapService_cases s v
  · exact h ▸ (Laws.awaitGetc_frame s).2
  · exact h ▸ (Laws.inRoutine_frame s).2
  · exact absurd hv (not_or.mpr ⟨hputs, hputsp⟩)
  · rw [h]; rfl
  · rw [h]; rfl

/-- Settles O41: a trap is the service of its vector, whose frame is known from the vector. -/
theorem trapsKeepFlagsPcAndLink : Obligations.TrapsKeepFlagsPcAndLink := by
  intro s t i hi hexec
  obtain ⟨v, hv⟩ : ∃ v, trapVector i = some v := by
    obtain rfl | rfl | rfl | rfl | rfl | rfl | ⟨v, rfl⟩ := hi <;> exact ⟨_, rfl⟩
  obtain ⟨hdest, hpc, haddr, hreg⟩ := writes_of_trapVector hv
  have f := execFrame_of_exec hexec
  refine ⟨f.cond hdest, f.pc hpc, fun r hr => f.getX r ?_, fun hgetc hin hgetc' hin' => f.getX 0 ?_,
    fun k hk hk' => f.readByte k (by simp [haddr]) hk (.inl hk'), fun hputs hputsp hputs' hputsp' => ?_⟩
  · rw [hreg]
    split
    · simpa using hr.symm
    · simp
  · rw [hreg, if_neg ?_]
    · simp
    · rintro (rfl | rfl)
      · simpa [hgetc, hgetc'] using trapVector_cases hv
      · simpa [hin, hin'] using trapVector_cases hv
  · obtain rfl := Host.Outcome.next.inj ((exec_of_trapVector hv s).symm.trans hexec)
    refine trapService_mem ?_ ?_ s
    · rintro rfl
      simpa [hputs, hputs'] using trapVector_cases hv
    · rintro rfl
      simpa [hputsp, hputsp'] using trapVector_cases hv

/-! ### Steps -/

/-- Everything a step that answers a next state can be, with the frame of the instruction that it ran. -/
theorem step_frame_cases {s t : State} (h : step s = .next t) :
    (s.run = .running ∧ s.pc = pcLast ∧ t = stopState s .pcOverflow) ∨
    (s.run = .running ∧ s.pc ≠ pcLast ∧ ExecFrame (decode s.fetch.1) s.fetch.2 t) ∨
    (s.run = .waitGetc ∧ t = s.awaitGetc) ∨
    (s.run = .waitIn ∧ t = s.awaitIn) := by
  obtain h | ⟨hrun, hlast, hexec⟩ | h | h := Laws.step_cases h
  · exact .inl h
  · exact .inr (.inl ⟨hrun, hlast, execFrame_of_exec hexec⟩)
  · exact .inr (.inr (.inl h))
  · exact .inr (.inr (.inr h))

/-- A step writes `cond` only as one of the seven instructions, from its destination (00_scope.md rule R6). -/
theorem step_cond {s t : State} (h : step s = .next t) :
    t.cond = s.cond ∨
    (s.run = .running ∧ s.pc ≠ pcLast ∧
      ∃ dr, flagDest (decode s.fetch.1) = some dr ∧ t.cond = condOf (t.getX dr)) := by
  obtain ⟨-, -, rfl⟩ | ⟨hrun, hlast, f⟩ | ⟨-, rfl⟩ | ⟨-, rfl⟩ := step_frame_cases h
  · exact .inl rfl
  · cases hdest : flagDest (decode s.fetch.1) with
    | none => exact .inl ((f.cond hdest).trans (s.gate_cond s.pc))
    | some dr => exact .inr ⟨hrun, hlast, dr, rfl, f.flags dr hdest⟩
  · exact .inl (Laws.awaitGetc_frame s).1.cond
  · exact .inl (Laws.awaitIn_frame s).1.cond

/-- Settles O44: by the frame of the instruction, and a step changes `cond` only as its instruction does. -/
theorem exactlySevenInstructionsSetTheFlags : Obligations.ExactlySevenInstructionsSetTheFlags := by
  refine ⟨fun i s t hexec => ⟨fun dr hdest => ?_, (execFrame_of_exec hexec).cond⟩, fun s t hstep hne => ?_⟩
  · rw [(execFrame_of_exec hexec).flags dr hdest]
    exact flagsFrom_condOf (t.getX dr)
  · obtain hkept | ⟨hrun, hlast, dr, hdest, -⟩ := step_cond hstep
    · exact absurd hkept hne
    · exact ⟨hrun, hlast, fun hnone => Option.some_ne_none dr (hdest.symm.trans hnone)⟩

/-- Settles O55: the flags are kept or are those of a value, which are one of the three. -/
theorem flagsOnceSetStaySet : Obligations.FlagsOnceSetStaySet := by
  intro s t hset hstep
  obtain hkept | ⟨-, -, dr, -, hcond⟩ := step_cond hstep
  · rwa [hkept]
  · rw [hcond]
    exact condOf_cases (t.getX dr)

/-- Settles O46: an instruction that is no transfer keeps the `pc` that its fetch incremented. -/
theorem onlyControlTransfersChangePc : Obligations.OnlyControlTransfersChangePc := by
  refine ⟨fun i s t hexec => (execFrame_of_exec hexec).pc, fun s t hrun hlast hstep hkeeps => ?_⟩
  rw [Laws.step_running hrun hlast] at hstep
  exact (execFrame_of_exec hstep).pc hkeeps

/-- Settles O49: each case of a step, its fetch included, appends to `out` and takes from the head of `kbq`. -/
theorem channelsAreStreams : Obligations.ChannelsAreStreams := by
  intro s t hstep
  obtain ⟨-, -, rfl⟩ | ⟨-, -, f⟩ | ⟨-, rfl⟩ | ⟨-, rfl⟩ := step_frame_cases hstep
  · exact ⟨List.prefix_append _ _, List.suffix_rfl⟩
  · exact ⟨s.gate_out s.pc ▸ f.out, f.kbq.trans (s.gate_kbq_suffix s.pc)⟩
  · exact ⟨(Laws.awaitGetc_frame s).1.out, (Laws.awaitGetc_frame s).1.kbq⟩
  · exact ⟨(Laws.awaitIn_frame s).1.out, (Laws.awaitIn_frame s).1.kbq⟩

/-! ### KBDR -/

/-- Different cells share no byte. -/
theorem outside_of_ne {a c : Word} (h : c ≠ a) : outside (highKey c) a ∧ outside (lowKey c) a := by
  have hn : c.toNat ≠ a.toNat := fun e => h (BitVec.eq_of_toNat_eq e)
  unfold outside highKey lowKey
  omega

/-- A cell is as before when every byte outside the other cells is. -/
theorem cell_eq_of_readByte {s t : State} {c : Word}
    (h : ∀ k, (∀ a, a ≠ c → outside k a) → t.mem.readByte k = s.mem.readByte k) : t.cell c = s.cell c := by
  have hhigh := h (highKey c) fun a ha => (outside_of_ne ha.symm).1
  have hlow := h (lowKey c) fun a ha => (outside_of_ne ha.symm).2
  rw [State.cell, State.cell, Memory.readWord, Memory.readWord, hhigh, hlow]

/-- Settles O48: no gate of the step took a byte, so none wrote KBDR, and its instruction stores elsewhere. -/
theorem polledByteStaysInKbdr : Obligations.PolledByteStaysInKbdr := by
  refine ⟨fun s b q hbyte => ?_, fun s t hstep hkbq haddr => ?_⟩
  · have hread := State.memRead_kbsr_byte hbyte
    refine ⟨congrArg Prod.fst hread, ?_⟩
    rw [show s.memRead 0xFE00#16 = _ from hread]
    exact setCell_cell_same _ kbdrAddr _
  · obtain ⟨-, -, rfl⟩ | ⟨hrun, hlast, f⟩ | ⟨-, rfl⟩ | ⟨-, rfl⟩ := step_frame_cases hstep
    · rfl
    · have hfetch : (s.gate s.pc).kbq = s.kbq :=
        (s.gate_kbq_suffix s.pc).eq_of_length_le (hkbq ▸ f.kbq.length_le)
      have hstore := haddr hrun hlast
      refine cell_eq_of_readByte fun k hk => ?_
      have hkbsr : outside k kbsrAddr := hk kbsrAddr kbsrAddr_ne_kbdrAddr
      calc t.mem.readByte k
          = s.fetch.2.mem.readByte k :=
            f.readByte k (fun a ha => hk a fun h => hstore (h ▸ ha)) hkbsr (.inr (hkbq.trans hfetch.symm))
        _ = s.mem.readByte k := (PollFrame.gate s s.pc).keyboardBytes k hkbsr (.inr hfetch)
    · rw [State.cell, (Laws.awaitGetc_frame s).2]
      rfl
    · rw [State.cell, (Laws.awaitIn_frame s).2]
      rfl

/-! ### Stops -/

theorem stopCauseOf_eq_illegalRti_iff {i : Instr} : stopCauseOf i = some .illegalRti ↔ i = .rti := by
  cases i <;> simp [stopCauseOf]

theorem stopCauseOf_eq_illegalRes_iff {i : Instr} : stopCauseOf i = some .illegalRes ↔ i = .res := by
  cases i <;> simp [stopCauseOf]

theorem stopCauseOf_eq_halt_iff {i : Instr} : stopCauseOf i = some .halt ↔ i = .halt ∨ i = .trap 0x25#8 := by
  cases i <;> simp [stopCauseOf]

theorem stopCauseOf_ne_pcOverflow (i : Instr) : stopCauseOf i ≠ some .pcOverflow := by
  cases i <;> simp [stopCauseOf]

/-- The opcode of a word is the one its row fixes. -/
theorem opcode_rowMatch_decode (w : Word) : opcode (rowMatch (decode w)) = opcode w := by
  obtain ⟨-, hrow⟩ := decodedWordLiesInItsRow w
  refine (opcode_eq_of_and_eq (opcode_rowMask (decode w)) ?_).symm
  rw [← hrow, BitVec.and_assoc, BitVec.and_self]

theorem decode_eq_rti_iff {w : Word} : decode w = .rti ↔ opcode w = 0x8#4 := by
  refine ⟨fun h => ?_, Laws.decode_op_rti⟩
  rw [← opcode_rowMatch_decode, h]
  rfl

theorem decode_eq_res_iff {w : Word} : decode w = .res ↔ opcode w = 0xD#4 := by
  refine ⟨fun h => ?_, Laws.decode_op_res⟩
  rw [← opcode_rowMatch_decode, h]
  rfl

theorem decode_eq_halt_iff {w : Word} : decode w = .halt ↔ opcode w = 0xF#4 ∧ trapvect8Field w = 0x25#8 := by
  constructor
  · intro h
    have hop : opcode w = 0xF#4 := by
      rw [← opcode_rowMatch_decode, h]
      rfl
    rw [Laws.decode_op_trap hop] at h
    exact ⟨hop, Option.some.inj ((trapVector_decodeTrap w).symm.trans (congrArg trapVector h))⟩
  · rintro ⟨hop, hvect⟩
    rw [Laws.decode_op_trap hop, decodeTrap, hvect]
    rfl

/-- A word whose vector is 0x25 is not spelled `trap 0x25`, so it is HALT's. -/
theorem stopCauseOf_decode_eq_halt_iff {w : Word} :
    stopCauseOf (decode w) = some .halt ↔ opcode w = 0xF#4 ∧ trapvect8Field w = 0x25#8 := by
  have hspelling : decode w ≠ .trap 0x25#8 := fun h => by
    obtain ⟨hwf, -⟩ := decodedWordLiesInItsRow w
    rw [h] at hwf
    exact absurd hwf (by decide)
  rw [stopCauseOf_eq_halt_iff, or_iff_left hspelling, decode_eq_halt_iff]

/-- A running step ends stopped for a cause exactly as its instruction stops for it, or at 0xFFFF. -/
theorem step_stopped_iff {s t : State} (hrun : s.run = .running) (h : step s = .next t) (c : StopCause) :
    t.run = .stopped c ↔
      (s.pc = pcLast ∧ c = .pcOverflow) ∨ (s.pc ≠ pcLast ∧ stopCauseOf (decode (s.memRead s.pc).1) = some c) := by
  by_cases hlast : s.pc = pcLast
  · obtain rfl := Host.Outcome.next.inj ((Laws.step_overflow hrun hlast).symm.trans h)
    simp [hlast, pcOverflowStop_eq, stopState, eq_comm]
  · rw [Laws.step_running hrun hlast] at h
    have f := execFrame_of_exec h
    simp only [hlast, false_and, false_or, ne_eq, not_false_eq_true, true_and]
    cases hstop : stopCauseOf (decode (s.memRead s.pc).1) with
    | some c' =>
      rw [f.stop c' hstop]
      simp [stopState]
    | none =>
      have hfetch : s.fetch.2.run = .running := (s.gate_run s.pc).trans hrun
      obtain hr | hr | rfl | rfl := f.runsOn hstop
      · simp [hr.trans hfetch]
      · simp [hr]
      · simp
      · simp

/-- Settles O50: the causes are those of the step's instruction, whose opcode and vector the decoder read. -/
theorem eachStopHasItsCause : Obligations.EachStopHasItsCause := by
  intro s t hrun hstep
  simp only [step_stopped_iff hrun hstep, stopCauseOf_eq_illegalRti_iff, stopCauseOf_eq_illegalRes_iff,
    stopCauseOf_decode_eq_halt_iff, decode_eq_rti_iff, decode_eq_res_iff, stopCauseOf_ne_pcOverflow]
  simp [pcLast, opcode, trapvect8Field]


/-- Settles O51: a stop is the stop state of the fetch's state, or of `s` itself at 0xFFFF. -/
theorem stopsArePrecise : Obligations.StopsArePrecise := by
  intro s t c hrun hstep hstopped
  obtain ⟨hlast, rfl⟩ | ⟨hlast, hstop⟩ := (step_stopped_iff hrun hstep c).mp hstopped
  · obtain rfl := Host.Outcome.next.inj ((Laws.step_overflow hrun hlast).symm.trans hstep)
    obtain ⟨-, hregs, hpc, hkept⟩ := stoppedWith_stopState s .pcOverflow
    exact ⟨hregs, fun _ => ⟨hpc.trans hlast, hkept⟩, fun hne => absurd rfl hne⟩
  · rw [Laws.step_running hrun hlast] at hstep
    obtain rfl := (execFrame_of_exec hstep).stop c hstop
    obtain ⟨-, hregs, hpc, hmem, hkbq⟩ := stoppedWith_stopState s.fetch.2 c
    exact ⟨registersKept_trans (registersKept_gate s s.pc) hregs,
      fun hc => absurd (hc ▸ hstop) (stopCauseOf_ne_pcOverflow _), fun _ => ⟨hpc, hmem, hkbq⟩⟩

end Sys2Proof.Proofs
end

section
/-! PROOFS. The invariant of the state (10_state.md section 12): every step keeps it, reset has it, and so every state of a
run has it. -/

namespace Sys2Proof.Proofs

open Sys2Proof.Machine Sys2Proof.Claims

/-! ### The invariant, by the run state -/

/-- What the invariant asks in every run state. -/
def MemoryAndFlagsOk (s : State) : Prop := s.mem.wf ∧ legalCond s.cond

/-- In a running state it asks no more. -/
theorem inv_of_running {s : State} (hrun : s.run = .running) (hok : MemoryAndFlagsOk s) : s.Inv where
  mem_wf := hok.1
  cond_legal := hok.2
  prompt_written h := by simp [hrun] at h
  halt_written h := by simp [hrun] at h
  overflow_written h := by simp [hrun] at h
  overflow_pc h := by simp [hrun] at h
  pc_not_wrapped h := absurd hrun h

theorem inv_setRun_waitGetc {s : State} (hok : MemoryAndFlagsOk s) (hpc : s.pc ≠ 0x0000#16) : (s.setRun .waitGetc).Inv where
  mem_wf := hok.1
  cond_legal := hok.2
  prompt_written h := by simp at h
  halt_written h := by simp at h
  overflow_written h := by simp at h
  overflow_pc h := by simp at h
  pc_not_wrapped _ _ := hpc

theorem inv_setRun_waitIn {s : State} (hok : MemoryAndFlagsOk s) (hpc : s.pc ≠ 0x0000#16) (hprompt : inPrompt <:+ s.out) :
    (s.setRun .waitIn).Inv where
  mem_wf := hok.1
  cond_legal := hok.2
  prompt_written _ := hprompt
  halt_written h := by simp at h
  overflow_written h := by simp at h
  overflow_pc h := by simp at h
  pc_not_wrapped _ _ := hpc

/-- Every stop writes its own message. -/
theorem inv_stopState {s : State} {c : StopCause} (hok : MemoryAndFlagsOk s) (hlast : c = .pcOverflow → s.pc = pcLast)
    (hpc : c ≠ .pcOverflow → s.pc ≠ 0x0000#16) : (stopState s c).Inv where
  mem_wf := hok.1
  cond_legal := hok.2
  prompt_written h := by simp [stopState] at h
  halt_written h := by
    obtain rfl : c = .halt := by simpa [stopState] using h
    exact List.suffix_append _ _
  overflow_written h := by
    obtain rfl : c = .pcOverflow := by simpa [stopState] using h
    exact List.suffix_append _ _
  overflow_pc h := hlast (by simpa [stopState] using h)
  pc_not_wrapped _ h := hpc fun hc => h (by rw [hc]; rfl)

/-! ### Steps -/

/-- Memory stays canonical and the flags legal in every step. -/
theorem step_memoryAndFlagsOk {s t : State} (h : step s = .next t) (hok : MemoryAndFlagsOk s) : MemoryAndFlagsOk t := by
  obtain ⟨hwf, hlegal⟩ := hok
  constructor
  · obtain ⟨-, -, rfl⟩ | ⟨-, -, f⟩ | ⟨-, rfl⟩ | ⟨-, rfl⟩ := step_frame_cases h
    · exact hwf
    · exact f.wf (State.gate_wf hwf s.pc)
    · exact (Laws.awaitGetc_frame s).1.wf hwf
    · exact (Laws.awaitIn_frame s).1.wf hwf
  · obtain hkept | ⟨-, -, dr, -, hcond⟩ := step_cond h
    · rwa [hkept]
    · rw [hcond]
      exact .inr (condOf_cases (t.getX dr))

/-- An instruction run with `pc` not 0 leaves a state with the invariant: where it does not run on, it kept `pc`. -/
theorem inv_of_execFrame {i : Instr} {s t : State} (f : ExecFrame i s t) (hrun : s.run = .running) (hpc : s.pc ≠ 0x0000#16)
    (hs : MemoryAndFlagsOk s) (ht : MemoryAndFlagsOk t) : t.Inv := by
  cases hstop : stopCauseOf i with
  | some c =>
    obtain rfl := f.stop c hstop
    exact inv_stopState hs (fun hc => absurd (hc ▸ hstop) (stopCauseOf_ne_pcOverflow i)) fun _ => hpc
  | none =>
    obtain hkept | hrunning | rfl | rfl := f.runsOn hstop
    · exact inv_of_running (hkept.trans hrun) ht
    · exact inv_of_running hrunning ht
    · exact inv_setRun_waitGetc hs hpc
    · exact inv_setRun_waitIn (s := s.outBytes inPrompt) hs hpc (List.suffix_append _ _)

/-- Settles O52: the four cases of a step; a wait that does not end is the state it was. -/
theorem stepKeepsTheInvariant : Obligations.StepKeepsTheInvariant := by
  intro s t hinv hstep
  have hs : MemoryAndFlagsOk s := ⟨hinv.mem_wf, hinv.cond_legal⟩
  have ht : MemoryAndFlagsOk t := step_memoryAndFlagsOk hstep hs
  obtain ⟨-, hlast, rfl⟩ | ⟨hrun, hlast, f⟩ | ⟨hrun, rfl⟩ | ⟨hrun, rfl⟩ := step_frame_cases hstep
  · exact inv_stopState hs (fun _ => hlast) fun hc => absurd rfl hc
  · exact inv_of_execFrame f ((s.gate_run s.pc).trans hrun) (next_pc_ne_zero hlast)
      ⟨State.gate_wf hs.1 s.pc, (s.gate_cond s.pc).symm ▸ hs.2⟩ ht
  · cases hq : s.kbq with
    | nil => rwa [awaitGetc_empty hq, State.setRun_self hrun]
    | cons b q => exact inv_of_running (by rw [awaitGetc_byte hq]; rfl) ht
  · cases hq : s.kbq with
    | nil => rwa [awaitIn_empty hq, State.setRun_self hrun]
    | cons b q => exact inv_of_running (by rw [awaitIn_byte hq]; rfl) ht

/-! ### Runs -/

/-- Settles O53: memory is empty, the flags are 0, and the machine runs. -/
theorem resetHasTheInvariant : Obligations.ResetHasTheInvariant :=
  inv_of_running rfl ⟨Memory.wf_nil, .inl rfl⟩

/-- The invariant does not look at the queue. -/
theorem inv_setKbq {s : State} (h : s.Inv) (q : List Byte) : (s.setKbq q).Inv :=
  ⟨h.mem_wf, h.cond_legal, h.prompt_written, h.halt_written, h.overflow_written, h.overflow_pc, h.pc_not_wrapped⟩

theorem inv_setMem {s : State} (h : s.Inv) {m : Memory} (hm : m.wf) : (s.setMem m).Inv :=
  ⟨hm, h.cond_legal, h.prompt_written, h.halt_written, h.overflow_written, h.overflow_pc, h.pc_not_wrapped⟩

theorem loadImage_eq_some_iff {s t : State} {origin : Word} {ws : List Word} :
    s.loadImage origin ws = some t ↔ origin.toNat + ws.length ≤ 65536 ∧ State.loadWords origin ws s = t := by
  unfold State.loadImage
  split <;> simp [*]

theorem inv_loadImages {s t : State} {images : List (Word × List Word)} (h : s.Inv) (hload : s.loadImages images = some t) :
    t.Inv := by
  induction images generalizing s with
  | nil => exact Option.some.inj hload ▸ h
  | cons image images ih =>
    obtain ⟨u, hu, hrest⟩ := Option.bind_eq_some_iff.mp hload
    obtain ⟨-, rfl⟩ := loadImage_eq_some_iff.mp hu
    refine ih ?_ hrest
    rw [Laws.loadWords_setMem]
    exact inv_setMem h (Laws.loadWords_wf image.2 image.1 h.mem_wf)

/-- Settles O54: by induction over the run, from the loaded reset state. -/
theorem reachableStatesHaveTheInvariant : Obligations.ReachableStatesHaveTheInvariant := by
  intro s hreach
  induction hreach with
  | start before images s hload => exact inv_loadImages (inv_setKbq resetHasTheInvariant before.kbq) hload
  | step s t _ hstep ih => exact stepKeepsTheInvariant s t ih hstep
  | append s b _ ih => exact inv_setKbq ih _

end Sys2Proof.Proofs
end

section
/-! PROOFS. The string routines (43_trap.md rules R103, R105). -/

namespace Sys2Proof.Proofs

open Sys2Proof.Machine Sys2Proof.Claims

/-! ### The loop, with no bound -/

theorem stringBound_eq_succ (s : State) : ∃ n, s.stringBound = n + 1 :=
  ⟨s.stringBound - 1, by unfold State.stringBound; omega⟩

theorem writeString_of_zero (bytes : Word → List Byte) {s : State} {a : Word} (h : (s.memRead a).1 = 0x0000#16) :
    s.writeString bytes a = (s.memRead a).2 := by
  obtain ⟨n, hn⟩ := stringBound_eq_succ s
  rw [State.writeString, hn, Laws.stringLoop_zero_word n h]

/-- After a word that is not 0, both bounds, what is left of this one and the rest's own, leave enough reads. -/
theorem writeString_of_ne_zero (bytes : Word → List Byte) {s : State} {a : Word} (h : (s.memRead a).1 ≠ 0x0000#16) :
    s.writeString bytes a =
      ((s.memRead a).2.outBytes (bytes (s.memRead a).1)).writeString bytes (a + 1#16) := by
  obtain ⟨n, hn⟩ := stringBound_eq_succ s
  have hleft := Laws.readsLeft_decreases (bytes (s.memRead a).1) h
  have hbound := Laws.readsLeft_le_stringBound s a
  rw [State.writeString, hn, Laws.stringLoop_other_word n h]
  exact Laws.stringLoop_bound_enough bytes _ _ (by omega) (Laws.readsLeft_le_stringBound _ _)

theorem exec_puts (s : State) : exec .puts s = .next (s.writeString putsBytes (s.getX 0)) := rfl

theorem exec_putsp (s : State) : exec .putsp s = .next (s.writeString putspBytes (s.getX 0)) := rfl

theorem putsBytes_eq : putsBytes = fun w => [w.setWidth 8] := by
  funext w
  rw [putsBytes, lowByte_eq_setWidth]

theorem putspBytes_eq :
    putspBytes = fun w => if w.extractLsb' 8 8 = 0#8 then [w.setWidth 8] else [w.setWidth 8, w.extractLsb' 8 8] := by
  funext w
  rw [putspBytes, lowByte_eq_setWidth]
  rfl

/-- Settles O38: one round of the loop, the bound of the model being enough before it and after it. -/
theorem stringRoutineIsTheSpecsLoop : Obligations.StringRoutineIsTheSpecsLoop := by
  refine ⟨fun s => ⟨?_, ?_⟩, fun bytes s a => ⟨writeString_of_zero bytes, writeString_of_ne_zero bytes⟩⟩
  · rw [exec_puts, putsBytes_eq]
  · rw [exec_putsp, putspBytes_eq]

/-- Settles O37: both are the string routine, whose frame is known. -/
theorem stringRoutinesEndAndKeepTheRest : Obligations.StringRoutinesEndAndKeepTheRest := by
  have frame (s : State) (bytes : Word → List Byte) (a : Word) : StringRoutineFrame s (s.writeString bytes a) := by
    have f := PollFrame.writeString s bytes a
    exact ⟨⟨f.getX, f.cond⟩, f.pc, f.run, f.out, f.kbq, fun k hk hk' => f.keyboardBytes k hk (.inl hk'),
      fun hkbq k hk => f.keyboardBytes k hk (.inr hkbq)⟩
  intro s
  exact ⟨⟨_, exec_puts s, frame s _ _⟩, ⟨_, exec_putsp s, frame s _ _⟩⟩

/-! ### A string in memory -/

/-- The words stand at consecutive addresses from `a` on, with a zero word after them, and none at KBSR. -/
def StringAt (s : State) (a : Word) (ws : List Word) : Prop :=
  (∀ j (h : j < ws.length), s.cell (a + BitVec.ofNat 16 j) = ws[j]) ∧
  s.cell (a + BitVec.ofNat 16 ws.length) = 0x0000#16 ∧
  ∀ j, j ≤ ws.length → a + BitVec.ofNat 16 j ≠ kbsrAddr

theorem StringAt.head {s : State} {a w : Word} {ws : List Word} (h : StringAt s a (w :: ws)) :
    s.memRead a = (w, s) := by
  obtain ⟨hcells, -, hgate⟩ := h
  have hcell : s.cell a = w := (congrArg s.cell (BitVec.add_zero a)).symm.trans (hcells 0 (by simp))
  rw [State.memRead_of_ne (by simpa using hgate 0 (by simp)), hcell]

theorem StringAt.tail {s : State} {a w : Word} {ws : List Word} (h : StringAt s a (w :: ws)) (bs : List Byte) :
    StringAt (s.outBytes bs) (a + 1#16) ws := by
  obtain ⟨hcells, hend, hgate⟩ := h
  simp only [StringAt, Laws.next_word, State.outBytes_cell]
  exact ⟨fun j hj => hcells (j + 1) (by simpa using hj), hend, fun j hj => hgate (j + 1) (by simpa using hj)⟩

theorem StringAt.nil {s : State} {a : Word} (h : StringAt s a []) : s.memRead a = (0x0000#16, s) := by
  obtain ⟨-, hend, hgate⟩ := h
  have hcell : s.cell a = 0x0000#16 := by simpa using hend
  rw [State.memRead_of_ne (by simpa using hgate 0 (by simp)), hcell]

/-- A string that does not touch KBSR is written word by word. -/
theorem writeString_of_stringAt (bytes : Word → List Byte) {ws : List Word} (hws : ∀ w ∈ ws, w ≠ 0x0000#16) {s : State}
    {a : Word} (h : StringAt s a ws) : s.writeString bytes a = s.outBytes (ws.flatMap bytes) := by
  induction ws generalizing s a with
  | nil =>
    rw [writeString_of_zero bytes (congrArg Prod.fst h.nil), h.nil, List.flatMap_nil, State.outBytes_nil]
  | cons w ws ih =>
    obtain ⟨hw, hws⟩ := List.forall_mem_cons.mp hws
    rw [writeString_of_ne_zero bytes (by rwa [h.head]), h.head, ih hws (h.tail _), State.outBytes_append,
      List.flatMap_cons]

/-- Settles O39: PUTS writes one byte for each word of the string. -/
theorem putsWritesEachLowByte : Obligations.PutsWritesEachLowByte := by
  intro s ws hws hcells hend hgate
  rw [exec_puts, putsBytes_eq, writeString_of_stringAt _ hws ⟨hcells, hend, hgate⟩, List.map_eq_flatMap]

end Sys2Proof.Proofs
end

section
/-! PROOFS. The host's moves: reset (10_state.md rule R24) and the load of images (70_reset_and_hazards.md rules R146,
R147). -/

namespace Sys2Proof.Proofs

open Sys2Proof.Machine Sys2Proof.Claims

/-! ### Reset -/

/-- Memory with no byte listed is 0 everywhere (10_state.md rule R24). -/
theorem readWord_nil (a : Word) : Memory.readWord [] a = 0x0000#16 := by
  simp [Memory.readWord, Memory.readByte, Memory.unlisted]

/-- Settles O56: each value is written out in the reset state. -/
theorem resetValues : Obligations.ResetValues := by
  intro s
  have hreg (r : Reg) : s.hostReset.getX r = 0x0000#16 := Vector.getElem_replicate r.isLt
  exact ⟨hreg, rfl, rfl, readWord_nil, rfl, rfl, rfl⟩

/-! ### Image files -/

/-- The big-endian bytes of words are read back as the words (70_reset_and_hazards.md rule R147). -/
theorem wordsOfBytes_flatMap (ws : List Word) :
    wordsOfBytes (ws.flatMap fun w => [w.extractLsb' 8 8, w.extractLsb' 0 8]) = some ws := by
  induction ws with
  | nil => rfl
  | cons w ws ih =>
    have hword : w.extractLsb' 8 8 ++ w.extractLsb' 0 8 = w := highByte_append_lowByte w
    rw [List.flatMap_cons, List.cons_append, List.cons_append, List.nil_append, wordsOfBytes, ih, Option.map_some, hword]

theorem parseImage_flatMap (origin : Word) (ws : List Word) :
    parseImage ((origin :: ws).flatMap fun w => [w.extractLsb' 8 8, w.extractLsb' 0 8]) = some (origin, ws) := by
  rw [parseImage, wordsOfBytes_flatMap]

/-! ### Loads -/

/-- What no load changes. -/
def OnlyMemoryChanged (s t : State) : Prop :=
  RegistersKept s t ∧ t.pc = s.pc ∧ t.kbq = s.kbq ∧ t.out = s.out ∧ t.run = s.run

theorem onlyMemoryChanged_setMem (s : State) (m : Memory) : OnlyMemoryChanged s (s.setMem m) :=
  ⟨⟨s.setMem_getX m, rfl⟩, rfl, rfl, rfl, rfl⟩

theorem OnlyMemoryChanged.trans {s t u : State} (h : OnlyMemoryChanged s t) (g : OnlyMemoryChanged t u) :
    OnlyMemoryChanged s u := by
  obtain ⟨hregs, hpc, hkbq, hout, hrun⟩ := h
  obtain ⟨gregs, gpc, gkbq, gout, grun⟩ := g
  exact ⟨registersKept_trans hregs gregs, gpc.trans hpc, gkbq.trans hkbq, gout.trans hout, grun.trans hrun⟩

/-- An image that fits loads: its words stand from its origin on, and nothing else changed. -/
theorem loadImage_spec (s : State) {origin : Word} {ws : List Word} (hfits : origin.toNat + ws.length ≤ 65536) :
    ∃ t, s.loadImage origin ws = some t ∧
      (∀ j (h : j < ws.length), t.cell (origin + BitVec.ofNat 16 j) = ws[j]) ∧
      (∀ a, Uncovered (origin, ws) a → t.cell a = s.cell a) ∧ OnlyMemoryChanged s t := by
  refine ⟨_, if_pos hfits, fun j hj => Laws.loadWords_cell ws origin s (by omega) hj,
    fun a ha => Laws.loadWords_cell_of_ne ws origin s ha, ?_⟩
  rw [Laws.loadWords_setMem]
  exact onlyMemoryChanged_setMem s _

/-- Settles O57: the file is the big-endian bytes of the origin and the words, and the image is one load. -/
theorem loadedImageStandsInMemory : Obligations.LoadedImageStandsInMemory := by
  intro s origin ws hfits
  exact ⟨parseImage_flatMap origin ws, loadImage_spec s hfits⟩

/-- Settles O59: by induction over the images; what the first one placed is kept where no later one covers it. -/
theorem laterImagesOverwriteEarlierOnes : Obligations.LaterImagesOverwriteEarlierOnes := by
  intro s images hfits
  induction images generalizing s with
  | nil => exact ⟨s, rfl, by simp, fun _ _ => rfl, onlyMemoryChanged_setMem s s.mem⟩
  | cons image images ih =>
    obtain ⟨hfit, hfits⟩ := List.forall_mem_cons.mp hfits
    obtain ⟨u, hload, hplaced, hkept, honly⟩ := loadImage_spec s hfit
    obtain ⟨t, hloads, hlater, hkept', honly'⟩ := ih u hfits
    refine ⟨t, ?_, fun earlier origin ws later heq j hj huncovered => ?_, fun a ha => ?_, honly.trans honly'⟩
    · exact Option.bind_eq_some_iff.mpr ⟨u, hload, hloads⟩
    · cases earlier with
      | nil =>
        obtain ⟨rfl, rfl⟩ := List.cons.inj heq
        exact (hkept' _ huncovered).trans (hplaced j hj)
      | cons _ earlier =>
        obtain ⟨-, hrest⟩ := List.cons.inj heq
        exact hlater earlier origin ws later hrest j hj huncovered
    · obtain ⟨hfirst, hrest⟩ := List.forall_mem_cons.mp ha
      exact (hkept' a hrest).trans (hkept a hfirst)

end Sys2Proof.Proofs
end
